-- ==== Sys2Proof/Word.lean ====
section
/-! DEFINITION. The widths of the machine's values (00_scope.md R4, R7). -/

namespace Sys2Proof

/-- A byte of memory: 8 bits (R4). -/
abbrev Byte := BitVec 8

/-- A 4-bit field of the instruction word (R50); as a register index it is always valid (R13). -/
abbrev Nibble := BitVec 4

/-- A 16-bit value: an instruction word, or the datum of LD and ST (R4). -/
abbrev Half := BitVec 16

/-- A 32-bit value: a general register or the program counter (R4). -/
abbrev Word := BitVec 32

end Sys2Proof
end

