-- ==== Sys2Proof/Syntax.lean ====
section
/-! DEFINITION. The closed set of instruction variants (30_encoding.md R55 to R58, R63): one constructor for each row of
the opcode table, the three rows of illegal words among them. Every constructor keeps every field of its word, the ignored
ones too (R59), so that the word a fault latches can be told from the instruction (10_state.md R22; log entry 6). -/

namespace Sys2Proof

/-- The instructions. Arguments stand in the order of the fields `field_a`, `field_b`, `field_c` of the word (R50), less
the nibbles the row fixes; `b` and `c` are ignored fields. -/
inductive Instr where
  /-- MOV, `1 d h l` (R70): `h` and `l` are the nibbles of an immediate, not register indices. -/
  | mov (d h l : Nibble)
  /-- LDI, `2 d - -` (R71): the 32-bit immediate follows the word in memory and is read when LDI executes. -/
  | ldi (d b c : Nibble)
  /-- ADD, `3 d s1 s2` (R82). -/
  | add (d s1 s2 : Nibble)
  /-- SUB, `4 d s1 s2` (R83). -/
  | sub (d s1 s2 : Nibble)
  /-- MULT, `5 d s1 s2` (R84). -/
  | mult (d s1 s2 : Nibble)
  /-- DIV, `6 d s1 s2` (R85). -/
  | div (d s1 s2 : Nibble)
  /-- NOP, `0 0 - -` (R100). -/
  | nop (b c : Nibble)
  /-- HALT, `0 1 - -` (R101). -/
  | halt (b c : Nibble)
  /-- JMP, `0 2 r -` (R102). -/
  | jmp (r c : Nibble)
  /-- JZ, `0 3 r -` (R103). -/
  | jz (r c : Nibble)
  /-- JNZ, `0 4 r -` (R104). -/
  | jnz (r c : Nibble)
  /-- JC, `0 5 r -` (R105). -/
  | jc (r c : Nibble)
  /-- JNC, `0 6 r -` (R106). -/
  | jnc (r c : Nibble)
  /-- JS, `0 7 r -` (R107). -/
  | js (r c : Nibble)
  /-- JNS, `0 8 r -` (R108). -/
  | jns (r c : Nibble)
  /-- JO, `0 9 r -` (R109). -/
  | jo (r c : Nibble)
  /-- JNO, `0 A r -` (R110). -/
  | jno (r c : Nibble)
  /-- JLT, `0 B r -` (R111). -/
  | jlt (r c : Nibble)
  /-- JGT, `0 C r -` (R112). -/
  | jgt (r c : Nibble)
  /-- LD, `0 D d s` (R120): `d` the destination register, `s` the address register. -/
  | ld (d s : Nibble)
  /-- ST, `0 E d s` (R121): `d` the address register, `s` the data register. -/
  | st (d s : Nibble)
  /-- The illegal words `0 F - -` (R58). -/
  | unknownExtF (b c : Nibble)
  /-- The illegal words `7 - - -` (R58). -/
  | unknownBase7 (a b c : Nibble)
  /-- The illegal words `8 - - -` to `F - - -` (R58); `op` is the opcode field, 8 or more (WellFormed). -/
  | unknownBase8ToF (op a b c : Nibble)
  deriving DecidableEq, Repr

end Sys2Proof
end

