-- ==== Sys2Proof/WellFormed.lean ====
section
/-! DEFINITION. When a term of `Instr` stands for an instruction word. A register index of four bits is always valid
(10_state.md R13) and every value of an ignored field is accepted (30_encoding.md R59), so the one check left is the range of
the opcode that the row of the words `8 - - -` to `F - - -` keeps (30_encoding.md R58). -/

namespace Sys2Proof

/-- `op` lies in 8 to 15, the opcodes of the row UNKNOWN_BASE_8_TO_F. -/
def isHighOpcode (op : Nibble) : Bool := decide (8 ≤ op.toNat)

/-- The instruction stands for an instruction word. -/
def Instr.wellFormed : Instr → Bool
  | .unknownBase8ToF op _ _ _ => isHighOpcode op
  | .mov _ _ _ | .ldi _ _ _ | .add _ _ _ | .sub _ _ _ | .mult _ _ _ | .div _ _ _ => true
  | .nop _ _ | .halt _ _ | .jmp _ _ | .ld _ _ | .st _ _ => true
  | .jz _ _ | .jnz _ _ | .jc _ _ | .jnc _ _ | .js _ _ | .jns _ _ | .jo _ _ | .jno _ _ | .jlt _ _ | .jgt _ _ => true
  | .unknownExtF _ _ | .unknownBase7 _ _ _ => true

end Sys2Proof
end

