-- ==== Sys2Proof/Decode.lean ====
section
/-! DEFINITION. The two-level decoder of 30_encoding.md (R50, R54 to R58), total on every 16-bit word, and the encoder
written from the same tables. An LDI immediate is no part of the word (R60): it is read when LDI executes. -/

namespace Sys2Proof

/-- The four fields of an instruction word, bits 15:12, 11:8, 7:4 and 3:0 (R50). -/
def fieldOpcode (iw : Half) : Nibble := iw.extractLsb' 12 4
def fieldA (iw : Half) : Nibble := iw.extractLsb' 8 4
def fieldB (iw : Half) : Nibble := iw.extractLsb' 4 4
def fieldC (iw : Half) : Nibble := iw.extractLsb' 0 4

/-- The word `opcode ++ field_a ++ field_b ++ field_c` (R50). -/
def packFields (opcode a b c : Nibble) : Half := opcode ++ a ++ b ++ c

/-- Second level: the opcode is 0 and `field_a` selects (R55, R57). -/
def decodeExtended (a b c : Nibble) : Instr :=
  match a with
  | 0#4 => .nop b c
  | 1#4 => .halt b c
  | 2#4 => .jmp b c
  | 3#4 => .jz b c
  | 4#4 => .jnz b c
  | 5#4 => .jc b c
  | 6#4 => .jnc b c
  | 7#4 => .js b c
  | 8#4 => .jns b c
  | 9#4 => .jo b c
  | 10#4 => .jno b c
  | 11#4 => .jlt b c
  | 12#4 => .jgt b c
  | 13#4 => .ld b c
  | 14#4 => .st b c
  | _ => .unknownExtF b c

/-- First level: the opcode selects a base operation, or the extended set when it is 0 (R54, R56). -/
def decodeFields (opcode a b c : Nibble) : Instr :=
  match opcode with
  | 0#4 => decodeExtended a b c
  | 1#4 => .mov a b c
  | 2#4 => .ldi a b c
  | 3#4 => .add a b c
  | 4#4 => .sub a b c
  | 5#4 => .mult a b c
  | 6#4 => .div a b c
  | 7#4 => .unknownBase7 a b c
  | _ => .unknownBase8ToF opcode a b c

/-- The instruction of a 16-bit word: every word has exactly one (R58). -/
def decodeWord (iw : Half) : Instr :=
  decodeFields (fieldOpcode iw) (fieldA iw) (fieldB iw) (fieldC iw)

/-- Why bytes are no instruction. -/
inductive DecodeError where
  /-- Fewer than the two bytes of an instruction word are there. The machine itself never meets it: its fetch checks the
  bounds first (R51). Safe. -/
  | truncatedWord
  deriving DecidableEq, Repr

/-- Decode the instruction word at the head of a list of bytes, high byte first (R50, R52), and give the rest. -/
def decodeBytes : List Byte → Except DecodeError (Instr × List Byte)
  | hi :: lo :: rest => .ok (decodeWord (hi ++ lo), rest)
  | [_] => .error .truncatedWord
  | [] => .error .truncatedWord

/-- The word of an instruction, from the maps R56 and R57. -/
def encode : Instr → Half
  | .mov d h l => packFields 1 d h l
  | .ldi d b c => packFields 2 d b c
  | .add d s1 s2 => packFields 3 d s1 s2
  | .sub d s1 s2 => packFields 4 d s1 s2
  | .mult d s1 s2 => packFields 5 d s1 s2
  | .div d s1 s2 => packFields 6 d s1 s2
  | .nop b c => packFields 0 0 b c
  | .halt b c => packFields 0 1 b c
  | .jmp r c => packFields 0 2 r c
  | .jz r c => packFields 0 3 r c
  | .jnz r c => packFields 0 4 r c
  | .jc r c => packFields 0 5 r c
  | .jnc r c => packFields 0 6 r c
  | .js r c => packFields 0 7 r c
  | .jns r c => packFields 0 8 r c
  | .jo r c => packFields 0 9 r c
  | .jno r c => packFields 0 10 r c
  | .jlt r c => packFields 0 11 r c
  | .jgt r c => packFields 0 12 r c
  | .ld d s => packFields 0 13 d s
  | .st d s => packFields 0 14 d s
  | .unknownExtF b c => packFields 0 15 b c
  | .unknownBase7 a b c => packFields 7 a b c
  | .unknownBase8ToF op a b c => packFields op a b c

/-- The bytes an instruction occupies in the instruction stream: LDI is followed by its immediate (R61). -/
def Instr.lengthBytes : Instr → Nat
  | .ldi _ _ _ => 6
  | .mov _ _ _ | .add _ _ _ | .sub _ _ _ | .mult _ _ _ | .div _ _ _ => 2
  | .nop _ _ | .halt _ _ | .jmp _ _ => 2
  | .jz _ _ | .jnz _ _ | .jc _ _ | .jnc _ _ | .js _ _ | .jns _ _ | .jo _ _ | .jno _ _ | .jlt _ _ | .jgt _ _ => 2
  | .ld _ _ | .st _ _ => 2
  | .unknownExtF _ _ | .unknownBase7 _ _ _ | .unknownBase8ToF _ _ _ _ => 2

/-- The canonical form of an instruction: every field the operation ignores is 0 (R59). -/
def Instr.canonical : Instr → Instr
  | .ldi d _ _ => .ldi d 0 0
  | .nop _ _ => .nop 0 0
  | .halt _ _ => .halt 0 0
  | .jmp r _ => .jmp r 0
  | .jz r _ => .jz r 0
  | .jnz r _ => .jnz r 0
  | .jc r _ => .jc r 0
  | .jnc r _ => .jnc r 0
  | .js r _ => .js r 0
  | .jns r _ => .jns r 0
  | .jo r _ => .jo r 0
  | .jno r _ => .jno r 0
  | .jlt r _ => .jlt r 0
  | .jgt r _ => .jgt r 0
  | .mov d h l => .mov d h l
  | .add d s1 s2 => .add d s1 s2
  | .sub d s1 s2 => .sub d s1 s2
  | .mult d s1 s2 => .mult d s1 s2
  | .div d s1 s2 => .div d s1 s2
  | .ld d s => .ld d s
  | .st d s => .st d s
  | .unknownExtF b c => .unknownExtF b c
  | .unknownBase7 a b c => .unknownBase7 a b c
  | .unknownBase8ToF op a b c => .unknownBase8ToF op a b c

/-- The rows of illegal words, for which decode raises `UnknownOpcode` (R58). -/
def Instr.isUnknown : Instr → Bool
  | .unknownExtF _ _ | .unknownBase7 _ _ _ | .unknownBase8ToF _ _ _ _ => true
  | .mov _ _ _ | .ldi _ _ _ | .add _ _ _ | .sub _ _ _ | .mult _ _ _ | .div _ _ _ => false
  | .nop _ _ | .halt _ _ | .jmp _ _ | .ld _ _ | .st _ _ => false
  | .jz _ _ | .jnz _ _ | .jc _ _ | .jnc _ _ | .js _ _ | .jns _ _ | .jo _ _ | .jno _ _ | .jlt _ _ | .jgt _ _ => false

/-- The two bytes of a word as memory holds them, the high byte at the lower address (20_memory.md R36). -/
def halfBytes (w : Half) : List Byte := [w.extractLsb' 8 8, w.extractLsb' 0 8]

/-- The bytes of an instruction in the instruction stream: its word, and for LDI the immediate after it (R61, R71). The
immediate is used by LDI alone. -/
def instrBytes (i : Instr) (imm : Word) : List Byte :=
  match i.lengthBytes with
  | 6 => halfBytes (encode i) ++ halfBytes (imm.extractLsb' 16 16) ++ halfBytes (imm.extractLsb' 0 16)
  | _ => halfBytes (encode i)

/-- The bytes of the opcode table's number `w` of `nbits` bits: bit 0 is the least significant bit of the first 16-bit
word, the next word's bits count on from it, and each word stands high byte first. Six bytes, the length of LDI, the longest
instruction; the bits above `nbits` are 0. -/
def tableBytes (nbits w : Nat) : List Byte :=
  let v := w % 2 ^ nbits
  halfBytes (BitVec.ofNat 16 v) ++ halfBytes (BitVec.ofNat 16 (v >>> 16)) ++ halfBytes (BitVec.ofNat 16 (v >>> 32))

/-- The instruction the decoder reads from the opcode table's number `w` of `nbits` bits. -/
def decodeTableWord (nbits w : Nat) : Option Instr :=
  match decodeBytes (tableBytes nbits w) with
  | .ok (i, _) => some i
  | .error _ => none

end Sys2Proof
end

