-- ==== Sys2Proof/Config.lean ====
section
/-! DEFINITION. What is fixed for the machine: the memory size, and the launch memory, which the spec leaves open as a
named parameter. -/

namespace Sys2Proof.Config

/-- `MEM_SIZE`, the number of bytes of memory (00_scope.md R4, 20_memory.md R30, decision D1). Log entry 2. -/
def memSize : Nat := 65536

/-- `launch_memory` (20_memory.md R32, decisions D2 and D23, 93 U7): the byte each address holds when the run starts,
where the host's loader placed none that the model was told of. A free value: it has no body, so no proof and no
evaluation can learn a byte of it. Log entry 1. -/
opaque launchMemory : Nat → Byte

end Sys2Proof.Config
end

