-- ==== Sys2Proof/Machine/State.lean ====
section
/-! DEFINITION. The state of the machine (10_state.md), as plain data, its value after reset (R27), and the reasons a step
could stop the model. -/

namespace Sys2Proof.Machine

/-- The fault kinds of 60_exceptions.md R130. A fault is an event of the machine, latched in its state (R131). -/
inductive FaultKind where
  /-- The fetch would read past the end of memory (R139). -/
  | outOfBoundsFetch
  /-- The word is an illegal one (R132). -/
  | unknownOpcode
  /-- Fewer than four bytes are left for the immediate of LDI (R133). -/
  | insufficientImmediateSpace
  /-- The divisor register of DIV holds 0 (R134). -/
  | divideByZero
  /-- The datum of LD or ST does not lie wholly inside memory (R140, decision D4). -/
  | outOfBoundsAccess
  deriving DecidableEq, Repr

/-- The record of the fault latch (10_state.md R22). -/
structure FaultRecord where
  /-- The kind. -/
  kind : FaultKind
  /-- The word being executed, absent for a fetch fault. -/
  iw : Option Half
  /-- The value of `pc` when the fault was raised. -/
  fpc : Word
  deriving DecidableEq, Repr

/-- The four independent flags `CF`, `ZF`, `SF`, `OF` (10_state.md R18). -/
structure Flags where
  carry : Bool
  zero : Bool
  sign : Bool
  overflow : Bool
  deriving DecidableEq, Repr

/-- The bytes of memory that the host placed or the engine stored, by address, addresses strictly rising (`Memory.wf`). An
address that is not listed still holds its launch byte (20_memory.md R32; log entries 1 and 5). -/
abbrev Memory := List Host.Cell

/-- The whole architectural state and the memory (10_state.md R10 to R25, 20_memory.md R30). -/
structure State where
  /-- `x[0]` to `x[15]` (R10). -/
  regs : Vector Word 16
  /-- The program counter, a byte address (R14). -/
  pc : Word
  /-- The flags (R18). -/
  flags : Flags
  /-- The run bit (R21). -/
  running : Bool
  /-- The fault latch (R22). -/
  fault : Option FaultRecord
  /-- The memory (20_memory.md R30 to R32). -/
  mem : Memory
  deriving DecidableEq, Repr

/-- The reasons a step stops the model with a fault: none. Every fault of this machine is an event whose whole effect the
spec gives (60_exceptions.md R131, R144), so a step that raises one answers a NEXT state with the latch set (log entry 3).
Safe: no constructor, no stop. -/
inductive Fault where
  deriving DecidableEq, Repr

/-- The reasons a step has no meaning. -/
inductive Refusal where
  /-- Raised by no arm of `exec` as it stands: it is there for an instruction whose meaning is not written. Safe. -/
  | notModelled (mnemonic : String)
  deriving DecidableEq, Repr

/-- What one step answers. -/
abbrev StepResult := Host.Outcome State Fault Refusal

/-- The state right after reset (10_state.md R27, 70_reset_and_hazards.md R160): registers, `pc` and flags 0, not running,
no fault latched. Memory lists nothing: every byte is the launch memory's, of which the spec says nothing (R161). -/
def State.reset : State where
  regs := Vector.replicate 16 0
  pc := 0
  flags := ⟨false, false, false, false⟩
  running := false
  fault := none
  mem := []

/-- The step driver inside one call of `run` (70_reset_and_hazards.md R167, R168): the engine's state and the two variables
of the driver, which no instruction can read and which are no engine state. -/
structure DriverState where
  engine : State
  /-- The number of steps executed in this call (R168). -/
  steps : Nat
  /-- The step limit was hit (R167). -/
  limitHit : Bool
  deriving DecidableEq, Repr

end Sys2Proof.Machine
end

