-- ==== Sys2Proof/Machine/Ops.lean ====
section
/-! DEFINITION. The named operations over memory, registers and `pc`, the one fault primitive, and what fetch does. -/

namespace Sys2Proof.Machine

/-! ### Memory (20_memory.md) -/

/-- The canonical form of a memory: addresses strictly rising, all of them inside memory (R30). An unlisted address has no
byte of its own, so no listed entry repeats what an unlisted address holds (log entry 5). -/
abbrev Memory.wf (m : Memory) : Prop :=
  m.Pairwise (fun c d => c.1 < d.1) ∧ ∀ c ∈ m, c.1 < Config.memSize

/-- The byte listed at an address, if one is. -/
def Memory.lookup : Memory → Nat → Option Byte
  | [], _ => none
  | (b, v) :: m, a => if b = a then some v else Memory.lookup m a

/-- What an unlisted address reads as: its byte of the launch memory (R32). Log entry 1. -/
def Memory.unlisted (a : Nat) : Byte := Config.launchMemory a

/-- `read(addr)` (R31): the byte most recently written there, or the launch content. -/
def Memory.read (m : Memory) (a : Nat) : Byte :=
  (m.lookup a).getD (Memory.unlisted a)

/-- `write(addr, byte)` (R31): exactly this byte changes. -/
def Memory.write : Memory → Nat → Byte → Memory
  | [], a, v => [(a, v)]
  | (b, w) :: m, a, v =>
    if a < b then (a, v) :: (b, w) :: m
    else if a = b then (a, v) :: m
    else (b, w) :: Memory.write m a v

/-- `MemRead(addr, 2)`: the byte at the lower address is the more significant (R33, R36). -/
def Memory.read16 (m : Memory) (a : Nat) : Half := m.read a ++ m.read (a + 1)

/-- `MemRead(addr, 4)` (R33, R36). -/
def Memory.read32 (m : Memory) (a : Nat) : Word := m.read16 a ++ m.read16 (a + 2)

/-- `MemWrite(addr, 2, v)` (R34): `M[a] <- v[15:8]`, `M[a+1] <- v[7:0]`. -/
def Memory.write16 (m : Memory) (a : Nat) (v : Half) : Memory :=
  (m.write a (v.extractLsb' 8 8)).write (a + 1) (v.extractLsb' 0 8)

/-- Place bytes at consecutive addresses from `a` on; a byte outside memory is not placed. -/
def Memory.place : Memory → Nat → List Byte → Memory
  | m, _, [] => m
  | m, a, v :: vs => Memory.place (if a < Config.memSize then m.write a v else m) (a + 1) vs

/-- `n` bytes from `a` on lie wholly inside memory, on unbounded integers (R38, decision D3). -/
abbrev inMemory (a n : Nat) : Prop := a + n ≤ Config.memSize

/-! ### Registers and the program counter (10_state.md) -/

/-- Read `x[i]` (R13): every index of four bits names a register, none is special (R11). -/
def readReg (s : State) (i : Nibble) : Word := s.regs[i.toNat]'i.isLt

/-- `x[i] <- v` (R11). -/
def writeReg (s : State) (i : Nibble) (v : Word) : State := { s with regs := s.regs.set i.toNat v i.isLt }

/-- `pc <- target` (R14). -/
def setPc (s : State) (target : Word) : State := { s with pc := target }

/-- `pc <- pc + n` (R15, R16). -/
def advancePc (s : State) (n : Word) : State := { s with pc := s.pc + n }

/-- Write all four flags (R18, R19). -/
def setFlags (s : State) (f : Flags) : State := { s with flags := f }

/-- `running <- b` (R21). -/
def setRunning (s : State) (b : Bool) : State := { s with running := b }

/-- Replace the memory. -/
def setMem (s : State) (m : Memory) : State := { s with mem := m }

/-! ### Faults (60_exceptions.md) -/

/-- The numeric code of a fault kind (R130, decision D10). -/
def FaultKind.code : FaultKind → Nat
  | .outOfBoundsFetch => 1
  | .unknownOpcode => 2
  | .insufficientImmediateSpace => 3
  | .divideByZero => 4
  | .outOfBoundsAccess => 5

/-- The fault primitive `raise Kind(iw)` (R131): `running <- false`, the latch takes the kind, the word and `pc` as it
stands, and nothing else changes. There is no handler and no return (R144, R146). -/
def raise (kind : FaultKind) (iw : Option Half) (s : State) : State :=
  { s with running := false, fault := some ⟨kind, iw, s.pc⟩ }

/-- The opcode an `UnknownOpcode` record is about: the opcode field, or `field_a` where that is 0 (R132). -/
def offendingOpcode (iw : Half) : Nibble := if fieldOpcode iw = 0 then fieldA iw else fieldOpcode iw

/-- The fault report to the host: the code of the kind, the word and `pc` as latched (R136). -/
def faultReport (s : State) : Option (Nat × Option Half × Word) :=
  s.fault.map fun r => (r.kind.code, r.iw, r.fpc)

/-- The step of instruction `i` that ends in a fault: the latched word is that of `i` (R131, R135). -/
def raiseIn (kind : FaultKind) (i : Instr) (s : State) : StepResult :=
  .next (raise kind (some (encode i)) s)

/-! ### Fetch (30_encoding.md) -/

/-- The bounds check of fetch, `pc + 1 < MEM_SIZE` on unbounded integers (R51, decision D3). -/
abbrev canFetch (s : State) : Prop := s.pc.toNat + 1 < Config.memSize

/-- The instruction word at `pc` (R52). -/
def fetchWord (s : State) : Half := s.mem.read16 s.pc.toNat

/-- `pc` advances by 2 before decode and execution (R52). -/
def afterFetch (s : State) : State := advancePc s 2

/-- The step whose fetch fails: no word, `pc` not advanced (R51, R139). -/
def fetchFault (s : State) : StepResult := .next (raise .outOfBoundsFetch none s)

end Sys2Proof.Machine
end

