-- ==== Sys2Proof/Machine/Flags.lean ====
section
/-! DEFINITION. The results and flags of the four arithmetic instructions (41_base_arithmetic.md R80 to R87), computed
exactly on the unsigned values and narrowed at the end, and the branch condition evaluator (42_ext_control.md R114). -/

namespace Sys2Proof.Machine

/-! ### Results: the low 32 bits of the exact result (R87) -/

/-- The exact sum (R82). -/
def addWide (a b : Word) : Nat := a.toNat + b.toNat
/-- The sum mod 2^32 (R82). -/
def addResult (a b : Word) : Word := BitVec.ofNat 32 (addWide a b)
/-- The difference mod 2^32 (R83). -/
def subResult (a b : Word) : Word := BitVec.ofInt 32 ((a.toNat : Int) - (b.toNat : Int))
/-- The low 32 bits of the exact product (R84). -/
def multResult (a b : Word) : Word := BitVec.ofNat 32 (a.toNat * b.toNat)
/-- The exact unsigned quotient; used for a divisor other than 0 only (R85). -/
def divQuotient (a b : Word) : Nat := a.toNat / b.toNat
/-- The quotient as it is stored (R85). -/
def divResult (a b : Word) : Word := BitVec.ofNat 32 (divQuotient a b)

/-! ### The ALU flag rule (R80), on the fresh result (R81) -/

/-- Zero: the result equals 0. -/
def zeroFlag (r : Word) : Bool := r == 0
/-- Sign: bit 31 of the result. -/
def signFlag (r : Word) : Bool := r.getLsbD 31
/-- Overflow: bit 31 of `(operand1 ^ result) & (operand2 ^ result)`; for SUB too operand 2 is the register as it stands
(90_conflicts.md C4, decision D6). -/
def overflowFlag (a b r : Word) : Bool := ((a ^^^ r) &&& (b ^^^ r)).getLsbD 31

/-- ADD: Carry is bit 32 of the exact sum (R82, decision D5). -/
def addFlags (a b : Word) : Flags where
  carry := (addWide a b).testBit 32
  zero := zeroFlag (addResult a b)
  sign := signFlag (addResult a b)
  overflow := overflowFlag a b (addResult a b)

/-- SUB: Carry is the borrow, an unsigned comparison (R83). -/
def subFlags (a b : Word) : Flags where
  carry := decide (a.toNat < b.toNat)
  zero := zeroFlag (subResult a b)
  sign := signFlag (subResult a b)
  overflow := overflowFlag a b (subResult a b)

/-- MULT: Carry and Overflow are cleared (R84). -/
def multFlags (a b : Word) : Flags where
  carry := false
  zero := zeroFlag (multResult a b)
  sign := signFlag (multResult a b)
  overflow := false

/-- DIV: Carry and Overflow are the predicate 'the quotient exceeds 32 bits', which never holds (R85, 93 U5). -/
def divFlags (a b : Word) : Flags where
  carry := decide (2 ^ 32 ≤ divQuotient a b)
  zero := zeroFlag (divResult a b)
  sign := signFlag (divResult a b)
  overflow := decide (2 ^ 32 ≤ divQuotient a b)

/-! ### Branch conditions (R114): the flags alone, not the names of the jumps, decide -/

def condZ (f : Flags) : Bool := f.zero
def condNZ (f : Flags) : Bool := !f.zero
def condC (f : Flags) : Bool := f.carry
def condNC (f : Flags) : Bool := !f.carry
def condS (f : Flags) : Bool := f.sign
def condNS (f : Flags) : Bool := !f.sign
def condO (f : Flags) : Bool := f.overflow
def condNO (f : Flags) : Bool := !f.overflow
/-- `SF != OF` (R111). -/
def condLT (f : Flags) : Bool := f.sign != f.overflow
/-- `ZF == 0` and `SF == OF` (R112). -/
def condGT (f : Flags) : Bool := !f.zero && (f.sign == f.overflow)

end Sys2Proof.Machine
end

