-- ==== Sys2Proof/Machine/Arithmetic.lean ====
section
/-! DEFINITION. ADD, SUB, MULT and DIV (41_base_arithmetic.md). -/

namespace Sys2Proof.Machine

/-- The end of a completed arithmetic instruction: the four flags are overwritten and the result is stored (R18, R86). The
sources have been read by the caller, before anything is written. -/
def storeArithmetic (s : State) (d : Nibble) (r : Word) (f : Flags) : State :=
  setFlags (writeReg s d r) f

/-- ADD (R82). -/
def execAdd (d s1 s2 : Nibble) (s : State) : StepResult :=
  .next (storeArithmetic s d (addResult (readReg s s1) (readReg s s2)) (addFlags (readReg s s1) (readReg s s2)))

/-- SUB (R83). -/
def execSub (d s1 s2 : Nibble) (s : State) : StepResult :=
  .next (storeArithmetic s d (subResult (readReg s s1) (readReg s s2)) (subFlags (readReg s s1) (readReg s s2)))

/-- MULT (R84). -/
def execMult (d s1 s2 : Nibble) (s : State) : StepResult :=
  .next (storeArithmetic s d (multResult (readReg s s1) (readReg s s2)) (multFlags (readReg s s1) (readReg s s2)))

/-- DIV (R85): a zero divisor faults and leaves the register and the flags as they were (R134). -/
def execDiv (d s1 s2 : Nibble) (s : State) : StepResult :=
  if readReg s s2 = 0 then raiseIn .divideByZero (.div d s1 s2) s
  else .next (storeArithmetic s d (divResult (readReg s s1) (readReg s s2)) (divFlags (readReg s s1) (readReg s s2)))

end Sys2Proof.Machine
end

