-- ==== Sys2Proof/Machine/Operands.lean ====
section
/-! DEFINITION. The operand forms: MOV's packed immediate and LDI's trailing one (30_encoding.md R60), the register-indirect
address and datum of LD and ST (43_ext_memory.md R122), and the jump target (42_ext_control.md R113). -/

namespace Sys2Proof.Machine

/-- `zext_32(field_b ++ field_c)`, the immediate of MOV (R60, R70). -/
def movImmediate (h l : Nibble) : Word := (h ++ l : BitVec 8).setWidth 32

/-- `MemRead(pc, 4)` at the advanced `pc`, the immediate of LDI (R60, R71). -/
def ldiImmediate (s : State) : Word := s.mem.read32 s.pc.toNat

/-- Four bytes are left from the advanced `pc` on (R71). -/
abbrev ldiFits (s : State) : Prop := inMemory s.pc.toNat 4

/-- The effective address: the full unsigned value of the address register, no offset (R122). -/
def effectiveAddress (s : State) (r : Nibble) : Nat := (readReg s r).toNat

/-- The bounds check of LD and ST, `a + 1 < MEM_SIZE` on unbounded integers (20_memory.md R38, decisions D3 and D4). -/
abbrev canAccess (a : Nat) : Prop := a + 1 < Config.memSize

/-- The datum of LD: 16 bits, extended with zeros (R120). -/
def loadDatum (s : State) (a : Nat) : Word := (s.mem.read16 a).setWidth 32

/-- The datum of ST: the low 16 bits of the register (R121). -/
def storeDatum (s : State) (r : Nibble) : Half := (readReg s r).setWidth 16

/-- The target of a jump: the full value of the register, an absolute byte address (R113). -/
def jumpTarget (s : State) (r : Nibble) : Word := readReg s r

end Sys2Proof.Machine
end

