-- ==== Sys2Proof/Machine/Control.lean ====
section
/-! DEFINITION. NOP, HALT, JMP and the ten conditional jumps (42_ext_control.md). The fields `b` and `c` are ignored
(30_encoding.md R59). -/

namespace Sys2Proof.Machine

/-- A jump: `pc` takes the register's value if the condition holds and stays at the next instruction if not; nothing is
checked and nothing else changes (R113). -/
def jumpIf (cond : Bool) (r : Nibble) (s : State) : State :=
  if cond then setPc s (jumpTarget s r) else s

/-- NOP (R100): `pc` has been advanced by the fetch, nothing else changes. -/
def execNop (_b _c : Nibble) (s : State) : StepResult := .next s

/-- HALT (R101): not a fault, the latch stays as it is. -/
def execHalt (_b _c : Nibble) (s : State) : StepResult := .next (setRunning s false)

/-- JMP (R102). -/
def execJmp (r _c : Nibble) (s : State) : StepResult := .next (setPc s (jumpTarget s r))

/-- JZ (R103). -/
def execJz (r _c : Nibble) (s : State) : StepResult := .next (jumpIf (condZ s.flags) r s)

/-- JNZ (R104). -/
def execJnz (r _c : Nibble) (s : State) : StepResult := .next (jumpIf (condNZ s.flags) r s)

/-- JC (R105). -/
def execJc (r _c : Nibble) (s : State) : StepResult := .next (jumpIf (condC s.flags) r s)

/-- JNC (R106). -/
def execJnc (r _c : Nibble) (s : State) : StepResult := .next (jumpIf (condNC s.flags) r s)

/-- JS (R107). -/
def execJs (r _c : Nibble) (s : State) : StepResult := .next (jumpIf (condS s.flags) r s)

/-- JNS (R108). -/
def execJns (r _c : Nibble) (s : State) : StepResult := .next (jumpIf (condNS s.flags) r s)

/-- JO (R109). -/
def execJo (r _c : Nibble) (s : State) : StepResult := .next (jumpIf (condO s.flags) r s)

/-- JNO (R110). -/
def execJno (r _c : Nibble) (s : State) : StepResult := .next (jumpIf (condNO s.flags) r s)

/-- JLT (R111). -/
def execJlt (r _c : Nibble) (s : State) : StepResult := .next (jumpIf (condLT s.flags) r s)

/-- JGT (R112). -/
def execJgt (r _c : Nibble) (s : State) : StepResult := .next (jumpIf (condGT s.flags) r s)

end Sys2Proof.Machine
end

