-- ==== Sys2Proof/Machine/DataMovement.lean ====
section
/-! DEFINITION. MOV and LDI (40_base_data_movement.md). Every meaning is entered with `pc` already advanced by 2. -/

namespace Sys2Proof.Machine

/-- MOV (R70): the whole register is written (decision D7), no flag is (decision D8). -/
def execMov (d h l : Nibble) (s : State) : StepResult :=
  .next (writeReg s d (movImmediate h l))

/-- LDI (R71): fault if fewer than four bytes are left, else load the immediate and step over it. -/
def execLdi (d b c : Nibble) (s : State) : StepResult :=
  if ldiFits s then .next (advancePc (writeReg s d (ldiImmediate s)) 4)
  else raiseIn .insufficientImmediateSpace (.ldi d b c) s

end Sys2Proof.Machine
end

