-- ==== Sys2Proof/Machine/Illegal.lean ====
section
/-! DEFINITION. The illegal words (30_encoding.md R58): each raises `UnknownOpcode` with its own word latched, one kind for
both levels of decoding (60_exceptions.md R132, decision D24). -/

namespace Sys2Proof.Machine

/-- The words `0 F - -`. -/
def execUnknownExtF (b c : Nibble) (s : State) : StepResult :=
  raiseIn .unknownOpcode (.unknownExtF b c) s

/-- The words `7 - - -`. -/
def execUnknownBase7 (a b c : Nibble) (s : State) : StepResult :=
  raiseIn .unknownOpcode (.unknownBase7 a b c) s

/-- The words `8 - - -` to `F - - -`. -/
def execUnknownBase8ToF (op a b c : Nibble) (s : State) : StepResult :=
  raiseIn .unknownOpcode (.unknownBase8ToF op a b c) s

end Sys2Proof.Machine
end

