-- ==== Sys2Proof/Machine/LoadStore.lean ====
section
/-! DEFINITION. LD and ST (43_ext_memory.md). -/

namespace Sys2Proof.Machine

/-- LD (R120): the address is read before the destination is written; out of range faults and writes nothing (R140). -/
def execLd (d r : Nibble) (s : State) : StepResult :=
  if canAccess (effectiveAddress s r) then .next (writeReg s d (loadDatum s (effectiveAddress s r)))
  else raiseIn .outOfBoundsAccess (.ld d r) s

/-- ST (R121): out of range faults and writes neither byte (R140). -/
def execSt (d r : Nibble) (s : State) : StepResult :=
  if canAccess (effectiveAddress s d) then .next (setMem s (s.mem.write16 (effectiveAddress s d) (storeDatum s r)))
  else raiseIn .outOfBoundsAccess (.st d r) s

end Sys2Proof.Machine
end

