-- ==== Sys2Proof/Machine/Dispatch.lean ====
section
/-! DEFINITION. One arm per instruction (30_encoding.md R53). -/

namespace Sys2Proof.Machine

/-- Execute one decoded instruction, `pc` already advanced by the fetch (10_state.md R15). -/
def exec (i : Instr) (s : State) : Host.Outcome State Fault Refusal :=
  match i with
  | .mov d h l => Sys2Proof.Machine.execMov d h l s
  | .ldi d b c => Sys2Proof.Machine.execLdi d b c s
  | .add d s1 s2 => Sys2Proof.Machine.execAdd d s1 s2 s
  | .sub d s1 s2 => Sys2Proof.Machine.execSub d s1 s2 s
  | .mult d s1 s2 => Sys2Proof.Machine.execMult d s1 s2 s
  | .div d s1 s2 => Sys2Proof.Machine.execDiv d s1 s2 s
  | .nop b c => Sys2Proof.Machine.execNop b c s
  | .halt b c => Sys2Proof.Machine.execHalt b c s
  | .jmp r c => Sys2Proof.Machine.execJmp r c s
  | .jz r c => Sys2Proof.Machine.execJz r c s
  | .jnz r c => Sys2Proof.Machine.execJnz r c s
  | .jc r c => Sys2Proof.Machine.execJc r c s
  | .jnc r c => Sys2Proof.Machine.execJnc r c s
  | .js r c => Sys2Proof.Machine.execJs r c s
  | .jns r c => Sys2Proof.Machine.execJns r c s
  | .jo r c => Sys2Proof.Machine.execJo r c s
  | .jno r c => Sys2Proof.Machine.execJno r c s
  | .jlt r c => Sys2Proof.Machine.execJlt r c s
  | .jgt r c => Sys2Proof.Machine.execJgt r c s
  | .ld d r => Sys2Proof.Machine.execLd d r s
  | .st d r => Sys2Proof.Machine.execSt d r s
  | .unknownExtF b c => Sys2Proof.Machine.execUnknownExtF b c s
  | .unknownBase7 a b c => Sys2Proof.Machine.execUnknownBase7 a b c s
  | .unknownBase8ToF op a b c => Sys2Proof.Machine.execUnknownBase8ToF op a b c s

end Sys2Proof.Machine
end

