-- ==== Sys2Proof/Machine/Step.lean ====
section
/-! DEFINITION. One step of the engine (30_encoding.md R53). -/

namespace Sys2Proof.Machine

/-- One step (R53): nothing if not running; a fetch fault if the word does not lie in memory; else the instruction of the
word at `pc`, executed with `pc` advanced by 2. -/
def step (s : State) : Host.Outcome State Fault Refusal :=
  if s.running then
    if canFetch s then exec (decodeWord (fetchWord s)) (afterFetch s) else fetchFault s
  else .next s

/-- `s` with the opcode table's number `w` of `nbits` bits as its next instruction: six bytes placed at `pc`, as the host's
loader places them (70_reset_and_hazards.md R165), and the machine in the running condition that power-on enters
(R162; 60_exceptions.md R138), so that the very next step runs it. Log entry 4. -/
def State.withFetchWord (s : State) (nbits w : Nat) : State :=
  { s with mem := s.mem.place s.pc.toNat (tableBytes nbits w), running := true, fault := none }

end Sys2Proof.Machine
end

