-- ==== Sys2Proof/Machine/Driver.lean ====
section
/-! DEFINITION. What the host and the step driver do to the engine between steps: reset, memory load, power-on and `run`
(00_scope.md R5, 70_reset_and_hazards.md R160 to R169). -/

namespace Sys2Proof.Machine

/-- The reset transaction (R160), from whatever state: every piece of engine state takes its reset value. Of memory reset
says nothing (R161), so what memory holds afterwards is an argument, the host's launch memory. -/
def State.resetWith (launch : Memory) : State := { State.reset with mem := launch }

/-- The loader's memory write (R165): bytes placed from `base` on, nothing else touched. What a loader does with an image
that does not fit is not stated (91 N11): there is no state then. Log entry 11. -/
def loadImage (s : State) (base : Nat) (image : List Byte) : Option State :=
  if inMemory base image.length then some (setMem s (s.mem.place base image)) else none

/-- Power-on (R162): sets `running` unless a fault is latched, and touches nothing else (decision D12). -/
def powerOn (s : State) : State :=
  match s.fault with
  | none => setRunning s true
  | some _ => s

/-- The step limit is present and reached (R167). -/
def limitReached (limit : Option Nat) (steps : Nat) : Bool :=
  match limit with
  | none => false
  | some n => decide (n ≤ steps)

/-- One turn of the driver's loop with `running` true (R167): force a stop at the limit, leaving the fault latch alone
(60_exceptions.md R141), or execute one step and count it (R168). -/
def driverTurn (limit : Option Nat) (d : DriverState) : Option DriverState :=
  if limitReached limit d.steps then
    some { d with engine := setRunning d.engine false, limitHit := true }
  else
    match step d.engine with
    | .next s => some { d with engine := s, steps := d.steps + 1 }
    | .fault _ => none
    | .refused _ => none

/-- The driver's loop, for at most `fuel` turns; `none` if it has not ended by then (log entry 9). -/
def driverLoop (limit : Option Nat) : Nat → DriverState → Option DriverState
  | 0, d => if d.engine.running then none else some d
  | fuel + 1, d =>
    if d.engine.running then
      match driverTurn limit d with
      | some d' => driverLoop limit fuel d'
      | none => none
    else some d

/-- `run(step_limit)` (R167), where it ends within `fuel` turns: the count starts at 0 in each call (R168). -/
def run (limit : Option Nat) (fuel : Nat) (s : State) : Option DriverState :=
  driverLoop limit fuel ⟨s, 0, false⟩

end Sys2Proof.Machine
end

