-- ==== Sys2Proof/Safety.lean ====
section
/-! DEFINITION. The terms claims are stated in: the run conditions, the invariant of the reachable states, good ends, the
spec's opcode table, and what an instruction may change. -/

namespace Sys2Proof.Safety

open Sys2Proof.Machine

/-- The illegal instruction words (30_encoding.md R58): `0x7000` and above, and `0x0F00` to `0x0FFF`. -/
abbrev illegalWord (w : Half) : Prop := 0x7000 ≤ w.toNat ∨ (0x0F00 ≤ w.toNat ∧ w.toNat ≤ 0x0FFF)

/-- The word a fault of this kind can have latched, and the `pc` with it (60_exceptions.md R130): no word and an
out-of-range `pc` for a fetch fault, else a word of the instruction that raises the kind. -/
def recordOk (r : FaultRecord) : Prop :=
  match r.kind, r.iw with
  | .outOfBoundsFetch, none => Config.memSize ≤ r.fpc.toNat + 1
  | .unknownOpcode, some w => illegalWord w
  | .insufficientImmediateSpace, some w => fieldOpcode w = 2 ∧ Config.memSize < r.fpc.toNat + 4
  | .divideByZero, some w => fieldOpcode w = 6
  | .outOfBoundsAccess, some w => fieldOpcode w = 0 ∧ (fieldA w = 13 ∨ fieldA w = 14)
  | _, _ => False

/-- The invariant of every state a run reaches: memory in canonical form; a latched fault means not running
(60_exceptions.md R138), holds the `pc` the machine stopped at (R135), and is a record some `raise` could write (R130). -/
def StateInv (s : State) : Prop :=
  s.mem.wf ∧ ∀ r, s.fault = some r → s.running = false ∧ r.fpc = s.pc ∧ recordOk r

/-- The conditions of 60_exceptions.md R138 that the state bits tell apart: off and stopped differ only in history. -/
inductive RunCondition where
  | offOrStopped
  | running
  | faulted
  deriving DecidableEq, Repr

/-- The condition of a state (R138). -/
def runCondition (s : State) : RunCondition :=
  match s.fault with
  | some _ => .faulted
  | none => if s.running then .running else .offOrStopped

/-- A run ended well: stopped by a HALT of its own (70_reset_and_hazards.md R169). R169's three bits hold also of a run called
on a machine that is not running, which executes nothing and reports (0, false) (R167); a run that executes a step does so
while `running` is true, so with a step executed and these bits its last step was HALT. A run called on a machine that an
earlier HALT stopped has not itself ended well: DESIGN CHOICE, log entry 15. -/
abbrev endedWell (d : DriverState) : Prop :=
  0 < d.steps ∧ d.engine.running = false ∧ d.engine.fault = none ∧ d.limitHit = false

/-- A run ended by the safety valve (R169). -/
abbrev endedByLimit (d : DriverState) : Prop := d.limitHit = true

/-- A run ended badly (R169). -/
abbrev endedBadly (d : DriverState) : Prop := d.engine.fault ≠ none

/-- The step of `u` is a HALT: a running machine with no fault latched, whose next word lies in memory and is HALT's. -/
def haltsNext (u : State) : Prop :=
  u.running = true ∧ u.fault = none ∧ u.pc.toNat + 1 < Config.memSize ∧ ∃ b c, decodeWord (fetchWord u) = .halt b c

/-- Every byte of memory reads the same. -/
def sameMemory (s t : State) : Prop := ∀ a, t.mem.read a = s.mem.read a

/-- Every register but `d` reads the same. -/
def sameRegsExcept (d : Nibble) (s t : State) : Prop := ∀ i, i ≠ d → readReg t i = readReg s i

/-- Every register reads the same. -/
def sameRegs (s t : State) : Prop := ∀ i, readReg t i = readReg s i

/-- `running` and the fault latch are the same. -/
def sameRunState (s t : State) : Prop := t.running = s.running ∧ t.fault = s.fault

/-- `k` steps of the engine one after another, with nothing between them. -/
def steps : Nat → State → Option State
  | 0, s => some s
  | k + 1, s =>
    match step s with
    | .next t => steps k t
    | .fault _ => none
    | .refused _ => none

/-- A row of the spec's opcode table: the match and mask of its words (opcode_table.json) and its instruction's row. -/
structure TableRow where
  mnemonic : String
  pattern : Half
  mask : Half
  deriving DecidableEq, Repr

/-- The word is one of the row's. -/
def TableRow.holds (r : TableRow) (w : Half) : Bool := w &&& r.mask == r.pattern

/-- The base rows of the opcode table. -/
def baseRows : List TableRow :=
  [⟨"MOV", 0x1000, 0xF000⟩, ⟨"LDI", 0x2000, 0xF000⟩, ⟨"ADD", 0x3000, 0xF000⟩, ⟨"SUB", 0x4000, 0xF000⟩,
   ⟨"MULT", 0x5000, 0xF000⟩, ⟨"DIV", 0x6000, 0xF000⟩]

/-- The extended rows of the opcode table. -/
def extendedRows : List TableRow :=
  [⟨"NOP", 0x0000, 0xFF00⟩, ⟨"HALT", 0x0100, 0xFF00⟩, ⟨"JMP", 0x0200, 0xFF00⟩, ⟨"JZ", 0x0300, 0xFF00⟩,
   ⟨"JNZ", 0x0400, 0xFF00⟩, ⟨"JC", 0x0500, 0xFF00⟩, ⟨"JNC", 0x0600, 0xFF00⟩, ⟨"JS", 0x0700, 0xFF00⟩,
   ⟨"JNS", 0x0800, 0xFF00⟩, ⟨"JO", 0x0900, 0xFF00⟩, ⟨"JNO", 0x0A00, 0xFF00⟩, ⟨"JLT", 0x0B00, 0xFF00⟩,
   ⟨"JGT", 0x0C00, 0xFF00⟩, ⟨"LD", 0x0D00, 0xFF00⟩, ⟨"ST", 0x0E00, 0xFF00⟩]

/-- The rows of illegal words. -/
def illegalRows : List TableRow :=
  [⟨"UNKNOWN_EXT_F", 0x0F00, 0xFF00⟩, ⟨"UNKNOWN_BASE_7", 0x7000, 0xF000⟩, ⟨"UNKNOWN_BASE_8_TO_F", 0x8000, 0x8000⟩]

/-- The opcode table: 24 rows. -/
def opcodeTable : List TableRow := baseRows ++ extendedRows ++ illegalRows

/-- The mnemonic of an instruction, as its row of the opcode table spells it. -/
def mnemonic : Instr → String
  | .mov _ _ _ => "MOV"
  | .ldi _ _ _ => "LDI"
  | .add _ _ _ => "ADD"
  | .sub _ _ _ => "SUB"
  | .mult _ _ _ => "MULT"
  | .div _ _ _ => "DIV"
  | .nop _ _ => "NOP"
  | .halt _ _ => "HALT"
  | .jmp _ _ => "JMP"
  | .jz _ _ => "JZ"
  | .jnz _ _ => "JNZ"
  | .jc _ _ => "JC"
  | .jnc _ _ => "JNC"
  | .js _ _ => "JS"
  | .jns _ _ => "JNS"
  | .jo _ _ => "JO"
  | .jno _ _ => "JNO"
  | .jlt _ _ => "JLT"
  | .jgt _ _ => "JGT"
  | .ld _ _ => "LD"
  | .st _ _ => "ST"
  | .unknownExtF _ _ => "UNKNOWN_EXT_F"
  | .unknownBase7 _ _ _ => "UNKNOWN_BASE_7"
  | .unknownBase8ToF _ _ _ _ => "UNKNOWN_BASE_8_TO_F"

/-- The register an instruction may write: the table of 10_state.md R12. -/
def destination : Instr → Option Nibble
  | .mov d _ _ | .ldi d _ _ | .add d _ _ | .sub d _ _ | .mult d _ _ | .div d _ _ => some d
  | .ld d _ => some d
  | .st _ _ | .nop _ _ | .halt _ _ | .jmp _ _ => none
  | .jz _ _ | .jnz _ _ | .jc _ _ | .jnc _ _ | .js _ _ | .jns _ _ | .jo _ _ | .jno _ _ | .jlt _ _ | .jgt _ _ => none
  | .unknownExtF _ _ | .unknownBase7 _ _ _ | .unknownBase8ToF _ _ _ _ => none

/-- The arithmetic instructions, the only writers of the flags (10_state.md R19). -/
def isArithmetic : Instr → Bool
  | .add _ _ _ | .sub _ _ _ | .mult _ _ _ | .div _ _ _ => true
  | .mov _ _ _ | .ldi _ _ _ | .nop _ _ | .halt _ _ | .jmp _ _ | .ld _ _ | .st _ _ => false
  | .jz _ _ | .jnz _ _ | .jc _ _ | .jnc _ _ | .js _ _ | .jns _ _ | .jo _ _ | .jno _ _ | .jlt _ _ | .jgt _ _ => false
  | .unknownExtF _ _ | .unknownBase7 _ _ _ | .unknownBase8ToF _ _ _ _ => false

/-- The table of 10_state.md R16: where `pc` stands after the step that fetches `i` at `s.pc`. -/
def pcAfter (i : Instr) (s : State) : Word :=
  let taken (cond : Bool) (r : Nibble) : Word := if cond then readReg s r else s.pc + 2
  match i with
  | .ldi _ _ _ => if s.pc.toNat + 6 ≤ Config.memSize then s.pc + 6 else s.pc + 2
  | .jmp r _ => readReg s r
  | .jz r _ => taken s.flags.zero r
  | .jnz r _ => taken (!s.flags.zero) r
  | .jc r _ => taken s.flags.carry r
  | .jnc r _ => taken (!s.flags.carry) r
  | .js r _ => taken s.flags.sign r
  | .jns r _ => taken (!s.flags.sign) r
  | .jo r _ => taken s.flags.overflow r
  | .jno r _ => taken (!s.flags.overflow) r
  | .jlt r _ => taken (s.flags.sign != s.flags.overflow) r
  | .jgt r _ => taken (!s.flags.zero && s.flags.sign == s.flags.overflow) r
  | .mov _ _ _ | .add _ _ _ | .sub _ _ _ | .mult _ _ _ | .div _ _ _ => s.pc + 2
  | .nop _ _ | .halt _ _ | .ld _ _ | .st _ _ => s.pc + 2
  | .unknownExtF _ _ | .unknownBase7 _ _ _ | .unknownBase8ToF _ _ _ _ => s.pc + 2

/-- The fault the step of a running machine raises, read from the raw fields of the word at `pc` in the order of
60_exceptions.md R142: the fetch check, then decode, then the one check the operation has (R130). -/
def faultCause (s : State) : Option FaultKind :=
  let w := fetchWord s
  let op := w.extractLsb' 12 4
  let a := w.extractLsb' 8 4
  let b := w.extractLsb' 4 4
  let c := w.extractLsb' 0 4
  if Config.memSize ≤ s.pc.toNat + 1 then some .outOfBoundsFetch
  else if illegalWord w then some .unknownOpcode
  else if op = 2 ∧ Config.memSize < s.pc.toNat + 6 then some .insufficientImmediateSpace
  else if op = 6 ∧ readReg s c = 0 then some .divideByZero
  else if op = 0 ∧ a = 13 ∧ Config.memSize ≤ (readReg s c).toNat + 1 then some .outOfBoundsAccess
  else if op = 0 ∧ a = 14 ∧ Config.memSize ≤ (readReg s b).toNat + 1 then some .outOfBoundsAccess
  else none

end Sys2Proof.Safety
end

