-- ==== Sys2Proof/Certificates/Slice0/Obligations.lean ====
section
/-! DEFINITION. The statements for the provers, from the numbered rules of spec/. Where a rule rests on a decision of the
spec's own (92_eei_decisions.md, `D<n>`), the docstring names it. -/

open Sys2Proof Sys2Proof.Machine Sys2Proof.Safety

/-! ### Reset, the invariant and the step -/

/-- After reset, whatever the launch memory: every register 0, `pc` 0, the four flags false, not running, no fault latched,
and memory as the host left it. The latch's value rests on decision D10, the memory on D2 and D23. -/
def Obligations.ResetValues : Prop :=
  ∀ launch : Memory, (∀ i, readReg (State.resetWith launch) i = 0) ∧ (State.resetWith launch).pc = 0 ∧
    (State.resetWith launch).flags = ⟨false, false, false, false⟩ ∧ (State.resetWith launch).running = false ∧
    (State.resetWith launch).fault = none ∧ (State.resetWith launch).mem = launch ∧
    State.resetWith [] = State.reset

/-- The reset state meets the invariant (the model's; log entries 3 and 5, decisions D10 to D12). -/
def Obligations.ResetMeetsInvariant : Prop := StateInv State.reset

/-- Every step, from every state that meets the invariant, leads to one that does: memory stays canonical, a latched fault
means not running, holds the `pc` the machine stopped at and names a word that raises its kind (decisions D4, D10, D11). -/
def Obligations.StepKeepsInvariant : Prop :=
  ∀ s t, StateInv s → step s = .next t → StateInv t

/-- What the host does between steps keeps the invariant: reset with any launch memory, power-on, the forced stop of the
driver, and a memory load that fits (decisions D12, D20). -/
def Obligations.HostActionsKeepInvariant : Prop :=
  (∀ launch : Memory, launch.wf → StateInv (State.resetWith launch)) ∧
    ∀ s, StateInv s → StateInv (powerOn s) ∧ StateInv (setRunning s false) ∧
      ∀ base image t, loadImage s base image = some t → StateInv t

/-- Boot: reset, launch memory, power-on; then the first step runs the word `M[0] ++ M[1]` with `pc` at 2 (derived rule R164;
power-on as decision D12 reads it). -/
def Obligations.BootRunsWordAtZero : Prop :=
  ∀ launch : Memory,
    step (powerOn (State.resetWith launch)) =
      exec (decodeWord (launch.read 0 ++ launch.read 1))
        { State.reset with mem := launch, running := true, pc := 2 }

/-- The step function is total: every state has a next state, running or not. -/
def Obligations.EveryStateHasNextState : Prop :=
  ∀ s, ∃ t, step s = .next t

/-- With `running` false a step changes nothing (decision D13). -/
def Obligations.StoppedStepChangesNothing : Prop :=
  ∀ s : State, s.running = false → step s = .next s

/-- A fetch that does not lie in memory faults with `pc` unchanged and no word latched; no sum wraps (decisions D3, D10). -/
def Obligations.FetchOutsideMemoryFaults : Prop :=
  ∀ s : State, s.running = true → Config.memSize ≤ s.pc.toNat + 1 →
    step s = .next { s with running := false, fault := some ⟨.outOfBoundsFetch, none, s.pc⟩ }

/-- A step runs the decoded instruction: the word is the two bytes at `pc`, the first one high, and `pc` has been advanced by
2 before it executes. -/
def Obligations.StepRunsDecodedInstruction : Prop :=
  ∀ s : State, s.running = true → s.pc.toNat + 1 < Config.memSize →
    step s = exec (decodeWord (s.mem.read s.pc.toNat ++ s.mem.read (s.pc.toNat + 1))) { s with pc := s.pc + 2 }

/-! ### Encoding -/

/-- Words of the spec's vectors V1 decode to what they stand for, one of every format and of every illegal row. -/
def Obligations.SampleWordsDecode : Prop :=
  decodeWord 0x112A = .mov 1 2 10 ∧ decodeWord 0x22C7 = .ldi 2 12 7 ∧ decodeWord 0x4312 = .sub 3 1 2 ∧
    decodeWord 0x01AB = .halt 10 11 ∧ decodeWord 0x024F = .jmp 4 15 ∧ decodeWord 0x0C30 = .jgt 3 0 ∧
    decodeWord 0x0D21 = .ld 2 1 ∧ decodeWord 0x0E10 = .st 1 0 ∧ decodeWord 0x0FFF = .unknownExtF 15 15 ∧
    decodeWord 0x7000 = .unknownBase7 0 0 0 ∧ decodeWord 0x9ABC = .unknownBase8ToF 9 10 11 12

/-- Decoding the word of a well-formed instruction gives the instruction back, with every field at every value. -/
def Obligations.DecodeOfEncode : Prop :=
  ∀ i : Instr, i.wellFormed = true → decodeWord (encode i) = i

/-- Every word decodes to a well-formed instruction whose word it is: no bit is dropped, no word is refused. -/
def Obligations.EncodeOfDecode : Prop :=
  ∀ w : Half, (decodeWord w).wellFormed = true ∧ encode (decodeWord w) = w

/-- A row of the spec's opcode table holds of a word by its match and mask exactly when it is the row of the decoded
instruction: every word matches exactly one row. -/
def Obligations.DecodeFollowsOpcodeTable : Prop :=
  ∀ w : Half, ∀ r ∈ opcodeTable, (r.holds w = true ↔ r.mnemonic = mnemonic (decodeWord w))

/-- The illegal words are exactly `0x7000` and above and `0x0F00` to `0x0FFF`. -/
def Obligations.IllegalWordsAreTheUnknownRows : Prop :=
  ∀ w : Half, illegalWord w ↔ (decodeWord w).isUnknown = true

/-- The length is 6 when bits 15:12 of the word are 2 and 2 otherwise; the bytes of an instruction in the stream are that
many, and decode from their first two. -/
def Obligations.LengthFromOpcodeField : Prop :=
  (∀ w : Half, (decodeWord w).lengthBytes = if w.toNat / 4096 = 2 then 6 else 2) ∧
    ∀ (i : Instr) (imm : Word), i.wellFormed = true →
      (instrBytes i imm).length = i.lengthBytes ∧
        decodeBytes (instrBytes i imm) = .ok (i, (instrBytes i imm).drop 2)

/-- Ignored fields are not examined: an instruction does what its canonical form does, and LDI too, but that a fault of LDI
latches its own word (decision D18). -/
def Obligations.IgnoredFieldsDoNotMatter : Prop :=
  ∀ (i : Instr) (s : State), (∀ d b c, i = .ldi d b c → s.pc.toNat + 4 ≤ Config.memSize) →
    exec i s = exec i.canonical s

/-- An illegal word raises `UnknownOpcode`: the word and the advanced `pc` are latched, `running` is cleared and nothing else
changes (decisions D10, D11, D24). -/
def Obligations.IllegalWordsRaiseUnknownOpcode : Prop :=
  ∀ (op a b c : Nibble) (s : State),
    exec (.unknownExtF b c) s = .next { s with
      running := false, fault := some ⟨.unknownOpcode, some (0#4 ++ 15#4 ++ b ++ c), s.pc⟩ } ∧
    exec (.unknownBase7 a b c) s = .next { s with
      running := false, fault := some ⟨.unknownOpcode, some (7#4 ++ a ++ b ++ c), s.pc⟩ } ∧
    exec (.unknownBase8ToF op a b c) s = .next { s with
      running := false, fault := some ⟨.unknownOpcode, some (op ++ a ++ b ++ c), s.pc⟩ }

/-! ### Data movement -/

/-- MOV writes the whole register with `16 * h + l` and nothing else (decisions D7, D8). -/
def Obligations.MovLoadsImmediate : Prop :=
  ∀ (d h l : Nibble) (s : State),
    exec (.mov d h l) s = .next (writeReg s d (BitVec.ofNat 32 (16 * h.toNat + l.toNat)))

/-- LDI with four bytes left loads them, the first one most significant, and steps over them (decision D8). -/
def Obligations.LdiLoadsImmediate : Prop :=
  ∀ (d b c : Nibble) (s : State), s.pc.toNat + 4 ≤ Config.memSize →
    exec (.ldi d b c) s = .next { writeReg s d (BitVec.ofNat 32
      ((s.mem.read s.pc.toNat).toNat * 2 ^ 24 + (s.mem.read (s.pc.toNat + 1)).toNat * 2 ^ 16 +
        (s.mem.read (s.pc.toNat + 2)).toNat * 2 ^ 8 + (s.mem.read (s.pc.toNat + 3)).toNat)) with pc := s.pc + 4 }

/-- LDI with fewer than four bytes left faults: no register is written and `pc` is not advanced over the immediate
(decisions D3, D10, D11, D17). -/
def Obligations.LdiWithoutSpaceFaults : Prop :=
  ∀ (d b c : Nibble) (s : State), Config.memSize < s.pc.toNat + 4 →
    exec (.ldi d b c) s = .next { s with
      running := false, fault := some ⟨.insufficientImmediateSpace, some (2#4 ++ d ++ b ++ c), s.pc⟩ }

/-- What MOV, LDI and LD leave unchanged where they do not fault: every register but the destination, the flags, the run
state and all of memory (decision D8; LD's bound is decision D4's). -/
def Obligations.LoadsFrame : Prop :=
  ∀ (d x y : Nibble) (s t : State),
    (exec (.mov d x y) s = .next t ∨
      (exec (.ldi d x y) s = .next t ∧ s.pc.toNat + 4 ≤ Config.memSize) ∨
      (exec (.ld d x) s = .next t ∧ (readReg s x).toNat + 1 < Config.memSize)) →
    sameRegsExcept d s t ∧ t.flags = s.flags ∧ sameRunState s t ∧ sameMemory s t

/-! ### Arithmetic -/

/-- ADD: the sum mod 2^32; Carry is the carry out of bit 31 (decision D5), Zero and Sign are the result's, Overflow is set
when both operands have one sign and the result the other. -/
def Obligations.AddResultAndFlags : Prop :=
  ∀ (d s1 s2 : Nibble) (s : State),
    exec (.add d s1 s2) s = .next { writeReg s d (readReg s s1 + readReg s s2) with
      flags :=
        { carry := decide (2 ^ 32 ≤ (readReg s s1).toNat + (readReg s s2).toNat)
          zero := decide (readReg s s1 + readReg s s2 = 0)
          sign := (readReg s s1 + readReg s s2).msb
          overflow := decide ((readReg s s1).msb = (readReg s s2).msb ∧
            (readReg s s1 + readReg s s2).msb ≠ (readReg s s1).msb) } }

/-- SUB: the difference mod 2^32; Carry is the unsigned borrow; Overflow follows ADD's formula with operand 2 as it stands
(decision D6). -/
def Obligations.SubResultAndFlags : Prop :=
  ∀ (d s1 s2 : Nibble) (s : State),
    exec (.sub d s1 s2) s = .next { writeReg s d (readReg s s1 - readReg s s2) with
      flags :=
        { carry := decide ((readReg s s1).toNat < (readReg s s2).toNat)
          zero := decide (readReg s s1 = readReg s s2)
          sign := (readReg s s1 - readReg s s2).msb
          overflow := decide ((readReg s s1).msb = (readReg s s2).msb ∧
            (readReg s s1 - readReg s s2).msb ≠ (readReg s s1).msb) } }

/-- MULT: the word `5 d s1 s2`; the low 32 bits of the product; Carry and Overflow cleared, Zero and Sign per result; nothing
else changes, no fault. -/
def Obligations.MultResultAndFlags : Prop :=
  ∀ (d s1 s2 : Nibble) (s : State),
    decodeWord (5#4 ++ d ++ s1 ++ s2) = .mult d s1 s2 ∧ (Instr.mult d s1 s2).lengthBytes = 2 ∧
    exec (.mult d s1 s2) s = .next { writeReg s d (readReg s s1 * readReg s s2) with
      flags :=
        { carry := false
          zero := decide (2 ^ 32 ∣ (readReg s s1).toNat * (readReg s s2).toNat)
          sign := (readReg s s1 * readReg s s2).msb
          overflow := false } }

/-- DIV: the word `6 d s1 s2`, 2 bytes; with a divisor other than 0 the unsigned quotient, Carry and Overflow 0, Zero and Sign
from the quotient, and nothing else changes; with a divisor of 0, whatever the dividend, the fault `DivideByZero`: every
register, all four flags and memory as they were, `pc` where the fetch left it, not running. -/
def Obligations.DivResultAndFlags : Prop :=
  ∀ (d s1 s2 : Nibble) (s : State),
    decodeWord (6#4 ++ d ++ s1 ++ s2) = .div d s1 s2 ∧ (Instr.div d s1 s2).lengthBytes = 2 ∧
    (readReg s s2 ≠ 0 →
      exec (.div d s1 s2) s = .next { writeReg s d (readReg s s1 / readReg s s2) with
        flags :=
          { carry := false
            zero := decide ((readReg s s1).toNat < (readReg s s2).toNat)
            sign := (readReg s s1 / readReg s s2).msb
            overflow := false } }) ∧
    (readReg s s2 = 0 →
      ∃ t, exec (.div d s1 s2) s = .next t ∧ sameRegs s t ∧ t.flags = s.flags ∧ sameMemory s t ∧ t.pc = s.pc ∧
        t.running = false ∧ t.fault.map FaultRecord.kind = some .divideByZero)

/-- What the fault of DIV latches: the kind, the word and the advanced `pc`; nothing else but `running` changes
(decisions D10, D11). -/
def Obligations.DivideByZeroLatchesRecord : Prop :=
  ∀ (d s1 s2 : Nibble) (s : State), readReg s s2 = 0 →
    exec (.div d s1 s2) s = .next { s with
      running := false, fault := some ⟨.divideByZero, some (6#4 ++ d ++ s1 ++ s2), s.pc⟩ }

/-- After ADD the Overflow flag says that the signed sum does not fit 32 bits. -/
def Obligations.AddOverflowIsSignedOverflow : Prop :=
  ∀ (d s1 s2 : Nibble) (s : State), ∃ t, exec (.add d s1 s2) s = .next t ∧
    (t.flags.overflow = true ↔
      (readReg s s1).toInt + (readReg s s2).toInt < -2 ^ 31 ∨
      2 ^ 31 ≤ (readReg s s1).toInt + (readReg s s2).toInt)

/-- What JLT and JGT do after SUB: the table of rule R83, by the operands' signs. They do not test the signed order in
general (decision D6). -/
def Obligations.SignedJumpsAfterSub : Prop :=
  ∀ (d s1 s2 r c : Nibble) (s : State), ∃ t, exec (.sub d s1 s2) s = .next t ∧
    exec (.jlt r c) t = .next (if
        (if (readReg s s1).msb = (readReg s s2).msb then (readReg s s1).msb
          else (readReg s s1 - readReg s s2).msb) = true
      then { t with pc := readReg t r } else t) ∧
    exec (.jgt r c) t = .next (if
        (if (readReg s s1).msb = (readReg s s2).msb then
            !(readReg s s1).msb && decide (readReg s s1 ≠ readReg s s2)
          else !(readReg s s1 - readReg s s2).msb) = true
      then { t with pc := readReg t r } else t)

/-- After SUB, Carry and Zero give the unsigned order of the operands, so JC is the unsigned less-than branch and JNC the
greater-or-equal branch. -/
def Obligations.CarryAndZeroAfterSubGiveUnsignedOrder : Prop :=
  ∀ (d s1 s2 r c : Nibble) (s : State), ∃ t, exec (.sub d s1 s2) s = .next t ∧
    (t.flags.carry = true ↔ (readReg s s1).toNat < (readReg s s2).toNat) ∧
    (t.flags.zero = true ↔ readReg s s1 = readReg s s2) ∧
    (t.flags.carry = false ∧ t.flags.zero = false ↔ (readReg s s2).toNat < (readReg s s1).toNat) ∧
    exec (.jc r c) t =
      .next (if (readReg s s1).toNat < (readReg s s2).toNat then { t with pc := readReg t r } else t) ∧
    exec (.jnc r c) t =
      .next (if (readReg s s2).toNat ≤ (readReg s s1).toNat then { t with pc := readReg t r } else t)

/-- The stored results of ADD, SUB and MULT are also right as signed results modulo 2^32. -/
def Obligations.SignedResultsModulo : Prop :=
  ∀ (d s1 s2 : Nibble) (s : State), ∃ t u v,
    exec (.add d s1 s2) s = .next t ∧ exec (.sub d s1 s2) s = .next u ∧ exec (.mult d s1 s2) s = .next v ∧
    (readReg t d).toInt = ((readReg s s1).toInt + (readReg s s2).toInt).bmod (2 ^ 32) ∧
    (readReg u d).toInt = ((readReg s s1).toInt - (readReg s s2).toInt).bmod (2 ^ 32) ∧
    (readReg v d).toInt = ((readReg s s1).toInt * (readReg s s2).toInt).bmod (2 ^ 32)

/-- DIV stores the floor of the exact unsigned quotient: the one number `q` with `q * b <= a < (q + 1) * b`. -/
def Obligations.DivStoresFloorOfQuotient : Prop :=
  ∀ (d s1 s2 : Nibble) (s : State), readReg s s2 ≠ 0 →
    ∃ t, exec (.div d s1 s2) s = .next t ∧
      (readReg t d).toNat * (readReg s s2).toNat ≤ (readReg s s1).toNat ∧
      (readReg s s1).toNat < ((readReg t d).toNat + 1) * (readReg s s2).toNat

/-- The flags are those of the just-stored result, for each of the four instructions, and depend neither on what the
destination held nor on the flags before. -/
def Obligations.FlagsAreOfTheStoredResult : Prop :=
  ∀ (i : Instr) (d s1 s2 : Nibble) (s : State),
    (i = .add d s1 s2 ∨ i = .sub d s1 s2 ∨ i = .mult d s1 s2 ∨ (i = .div d s1 s2 ∧ readReg s s2 ≠ 0)) →
    ∃ t, exec i s = .next t ∧ (t.flags.zero = true ↔ readReg t d = 0) ∧
      t.flags.sign = (readReg t d).getLsbD 31 ∧
      (∀ f, ∃ u, exec i { s with flags := f } = .next u ∧ u.flags = t.flags) ∧
      (d ≠ s1 → d ≠ s2 → ∀ v, ∃ u, exec i (writeReg s d v) = .next u ∧ u.flags = t.flags)

/-- What ADD, SUB, MULT and a DIV that completes leave unchanged: every register but the destination, `pc`, the run state and
all of memory. -/
def Obligations.ArithmeticFrame : Prop :=
  ∀ (i : Instr) (d s1 s2 : Nibble) (s t : State),
    (i = .add d s1 s2 ∨ i = .sub d s1 s2 ∨ i = .mult d s1 s2 ∨ (i = .div d s1 s2 ∧ readReg s s2 ≠ 0)) →
    exec i s = .next t →
    sameRegsExcept d s t ∧ t.pc = s.pc ∧ sameRunState s t ∧ sameMemory s t

/-! ### Control -/

/-- NOP: every word `0x0000` to `0x00FF`, 2 bytes; nothing changes but that `pc` has been advanced; it counts as a step of
the driver. -/
def Obligations.NopChangesNothing : Prop :=
  ∀ (b c : Nibble) (s : State),
    decodeWord (0#4 ++ 0#4 ++ b ++ c) = .nop b c ∧ (Instr.nop b c).lengthBytes = 2 ∧ exec (.nop b c) s = .next s ∧
    (s.running = true → s.pc.toNat + 1 < Config.memSize →
      s.mem.read s.pc.toNat = 0 → s.mem.read (s.pc.toNat + 1) = b ++ c →
      step s = .next { s with pc := s.pc + 2 } ∧
        ∀ n hit, driverTurn none ⟨s, n, hit⟩ = some ⟨{ s with pc := s.pc + 2 }, n + 1, hit⟩)

/-- HALT: every word `0x0100` to `0x01FF`, 2 bytes; clears `running`, latches no fault and changes nothing else; no further
step executes, even if `run` is called again; and if no fault is latched a power-on lets execution resume where `pc` is
(decision D12). -/
def Obligations.HaltStopsTheEngine : Prop :=
  ∀ (b c : Nibble) (s : State),
    decodeWord (0#4 ++ 1#4 ++ b ++ c) = .halt b c ∧ (Instr.halt b c).lengthBytes = 2 ∧
    exec (.halt b c) s = .next { s with running := false } ∧
    step { s with running := false } = .next { s with running := false } ∧
    (∀ limit fuel, run limit fuel { s with running := false } = some ⟨{ s with running := false }, 0, false⟩) ∧
    (s.fault = none → powerOn { s with running := false } = { s with running := true })

/-- JMP: the word `0 2 r -`, 2 bytes; `pc` takes all 32 bits of the register; nothing else changes, no fault in this step; a
target at or past the last byte of memory makes the next step of a running machine raise `OutOfBoundsFetch` (decisions D3,
D10). -/
def Obligations.JmpGoesToRegister : Prop :=
  ∀ (r c : Nibble) (s : State),
    decodeWord (0#4 ++ 2#4 ++ r ++ c) = .jmp r c ∧ (Instr.jmp r c).lengthBytes = 2 ∧
    exec (.jmp r c) s = .next { s with pc := readReg s r } ∧
    (s.running = true → Config.memSize - 1 ≤ (readReg s r).toNat →
      ∃ t, step { s with pc := readReg s r } = .next t ∧ t.pc = readReg s r ∧
        t.fault = some ⟨.outOfBoundsFetch, none, readReg s r⟩)

/-- The ten conditional jumps: their words `0 3 r -` to `0 C r -`, 2 bytes each, and their conditions; `pc` takes the register's
value if the condition holds, and else nothing changes. -/
def Obligations.ConditionalJumps : Prop :=
  ∀ (r c : Nibble) (s : State),
    (decodeWord (0#4 ++ 3#4 ++ r ++ c) = .jz r c ∧
      exec (.jz r c) s = .next (if s.flags.zero = true then { s with pc := readReg s r } else s)) ∧
    (decodeWord (0#4 ++ 4#4 ++ r ++ c) = .jnz r c ∧
      exec (.jnz r c) s = .next (if s.flags.zero = false then { s with pc := readReg s r } else s)) ∧
    (decodeWord (0#4 ++ 5#4 ++ r ++ c) = .jc r c ∧
      exec (.jc r c) s = .next (if s.flags.carry = true then { s with pc := readReg s r } else s)) ∧
    (decodeWord (0#4 ++ 6#4 ++ r ++ c) = .jnc r c ∧
      exec (.jnc r c) s = .next (if s.flags.carry = false then { s with pc := readReg s r } else s)) ∧
    (decodeWord (0#4 ++ 7#4 ++ r ++ c) = .js r c ∧
      exec (.js r c) s = .next (if s.flags.sign = true then { s with pc := readReg s r } else s)) ∧
    (decodeWord (0#4 ++ 8#4 ++ r ++ c) = .jns r c ∧
      exec (.jns r c) s = .next (if s.flags.sign = false then { s with pc := readReg s r } else s)) ∧
    (decodeWord (0#4 ++ 9#4 ++ r ++ c) = .jo r c ∧
      exec (.jo r c) s = .next (if s.flags.overflow = true then { s with pc := readReg s r } else s)) ∧
    (decodeWord (0#4 ++ 10#4 ++ r ++ c) = .jno r c ∧
      exec (.jno r c) s = .next (if s.flags.overflow = false then { s with pc := readReg s r } else s)) ∧
    (decodeWord (0#4 ++ 11#4 ++ r ++ c) = .jlt r c ∧
      exec (.jlt r c) s = .next (if s.flags.sign ≠ s.flags.overflow then { s with pc := readReg s r } else s)) ∧
    (decodeWord (0#4 ++ 12#4 ++ r ++ c) = .jgt r c ∧
      exec (.jgt r c) s = .next (if s.flags.zero = false ∧ s.flags.sign = s.flags.overflow
        then { s with pc := readReg s r } else s)) ∧
    ∀ i ∈ [Instr.jz r c, .jnz r c, .jc r c, .jnc r c, .js r c, .jns r c, .jo r c, .jno r c, .jlt r c, .jgt r c],
      i.lengthBytes = 2

/-- In a state where a taken jump can be told from one not taken: of each complementary pair exactly one is taken; JLT and JGT
are never both taken, and neither is with Zero set and Sign equal to Overflow. -/
def Obligations.ComplementaryJumps : Prop :=
  ∀ (r c : Nibble) (s : State), readReg s r ≠ s.pc →
    let taken (i : Instr) : Prop := exec i s = .next { s with pc := readReg s r }
    (taken (.jz r c) ↔ ¬ taken (.jnz r c)) ∧ (taken (.jc r c) ↔ ¬ taken (.jnc r c)) ∧
    (taken (.js r c) ↔ ¬ taken (.jns r c)) ∧ (taken (.jo r c) ↔ ¬ taken (.jno r c)) ∧
    ¬ (taken (.jlt r c) ∧ taken (.jgt r c)) ∧
    (s.flags.zero = true → s.flags.sign = s.flags.overflow → ¬ taken (.jlt r c) ∧ ¬ taken (.jgt r c)) ∧
    (s.flags.sign ≠ s.flags.overflow → taken (.jlt r c))

/-- An odd target is legal: the step after a jump to an odd address fetches the two bytes there (decision D9). -/
def Obligations.OddTargetsAreLegal : Prop :=
  ∀ (r c : Nibble) (s : State), s.running = true → (readReg s r).toNat % 2 = 1 →
    (readReg s r).toNat + 1 < Config.memSize →
    ∃ t, exec (.jmp r c) s = .next t ∧
      step t = exec (decodeWord (s.mem.read (readReg s r).toNat ++ s.mem.read ((readReg s r).toNat + 1)))
        { s with pc := readReg s r + 2 }

/-- What NOP, HALT and the eleven jumps leave unchanged: every register, every flag, the fault latch and all of memory; only
HALT changes `running`; NOP and HALT leave `pc` (decision D8 for the flags). -/
def Obligations.ControlFrame : Prop :=
  ∀ (i : Instr) (x y : Nibble) (s t : State),
    i ∈ [Instr.nop x y, .halt x y, .jmp x y, .jz x y, .jnz x y, .jc x y, .jnc x y, .js x y, .jns x y, .jo x y, .jno x y,
      .jlt x y, .jgt x y] →
    exec i s = .next t →
    sameRegs s t ∧ t.flags = s.flags ∧ t.fault = s.fault ∧ sameMemory s t ∧
      (i ≠ .halt x y → t.running = s.running) ∧ (i = .nop x y ∨ i = .halt x y → t.pc = s.pc)

/-! ### Memory instructions -/

/-- LD in range: the register takes `256 * M[a] + M[a+1]`, bits 31:16 become 0, and nothing else changes (decision D8; the
bound is decision D4's). -/
def Obligations.LdLoadsBigEndianHalf : Prop :=
  ∀ (d r : Nibble) (s : State), (readReg s r).toNat + 1 < Config.memSize →
    exec (.ld d r) s = .next (writeReg s d (BitVec.ofNat 32
      (256 * (s.mem.read (readReg s r).toNat).toNat + (s.mem.read ((readReg s r).toNat + 1)).toNat)))

/-- ST in range: the two bytes of the low half of the data register stand at the address and after it, and every other byte
and all other state are as before (decision D8; the bound is decision D4's). -/
def Obligations.StStoresLowHalf : Prop :=
  ∀ (d r : Nibble) (s : State), (readReg s d).toNat + 1 < Config.memSize →
    ∃ t, exec (.st d r) s = .next t ∧
      (t.mem.read (readReg s d).toNat).toNat = (readReg s r).toNat / 256 % 256 ∧
      (t.mem.read ((readReg s d).toNat + 1)).toNat = (readReg s r).toNat % 256 ∧
      (∀ a, a ≠ (readReg s d).toNat → a ≠ (readReg s d).toNat + 1 → t.mem.read a = s.mem.read a) ∧
      t = { s with mem := t.mem }

/-- LD and ST out of range fault, read and write nothing, and keep `pc`; no address wraps (decisions D3, D4, D10, D11). -/
def Obligations.AccessOutsideMemoryFaults : Prop :=
  ∀ (d r : Nibble) (s : State),
    (Config.memSize ≤ (readReg s r).toNat + 1 →
      exec (.ld d r) s = .next { s with
        running := false, fault := some ⟨.outOfBoundsAccess, some (0#4 ++ 13#4 ++ d ++ r), s.pc⟩ }) ∧
    (Config.memSize ≤ (readReg s d).toNat + 1 →
      exec (.st d r) s = .next { s with
        running := false, fault := some ⟨.outOfBoundsAccess, some (0#4 ++ 14#4 ++ d ++ r), s.pc⟩ })

/-- The frame of ST: whatever its address, it writes no register, no flag and no `pc`, and only the two bytes at its effective
address, in range, or none (decision D4 out of range). -/
def Obligations.StFrame : Prop :=
  ∀ (d r : Nibble) (s t : State), exec (.st d r) s = .next t →
    sameRegs s t ∧ t.flags = s.flags ∧ t.pc = s.pc ∧
    (canAccess (effectiveAddress s d) → sameRunState s t) ∧
    ∀ a, (a ≠ effectiveAddress s d ∧ a ≠ effectiveAddress s d + 1) ∨ ¬ canAccess (effectiveAddress s d) →
      t.mem.read a = s.mem.read a

/-- Store then load: for every in-range address, a ST and then a LD through any register that holds the address gives the low
16 bits stored, extended with zeros. -/
def Obligations.StoreThenLoadRoundTrip : Prop :=
  ∀ (d r e q : Nibble) (s : State), (readReg s d).toNat + 1 < Config.memSize → readReg s q = readReg s d →
    ∃ t u, exec (.st d r) s = .next t ∧ exec (.ld e q) t = .next u ∧
      (readReg u e).toNat = (readReg s r).toNat % 2 ^ 16

/-- A store is seen by the very next fetch: a running machine that steps at the address just stored to runs the stored word. -/
def Obligations.StoreIsSeenByNextFetch : Prop :=
  ∀ (d r : Nibble) (s : State), s.running = true → (readReg s d).toNat + 1 < Config.memSize → s.pc = readReg s d →
    ∃ t, exec (.st d r) s = .next t ∧
      step t = exec (decodeWord (BitVec.ofNat 16 (readReg s r).toNat)) { t with pc := t.pc + 2 }

/-- `MemWrite`: with `n = 2` the byte at the address is `v[15:8]` and the next one `v[7:0]`, with `n = 1` the byte is `v`, and
no other byte changes. -/
def Obligations.MemWriteBytes : Prop :=
  (∀ (m : Memory) (a : Nat) (v : Half),
    (m.write16 a v).read a = v.extractLsb' 8 8 ∧ (m.write16 a v).read (a + 1) = v.extractLsb' 0 8 ∧
      ∀ x, x ≠ a → x ≠ a + 1 → (m.write16 a v).read x = m.read x) ∧
    ∀ (m : Memory) (a : Nat) (v : Byte), (m.write a v).read a = v ∧ ∀ x, x ≠ a → (m.write a v).read x = m.read x

/-! ### The whole machine -/

/-- A step writes no register but the destination its instruction names (the table of rule R12, derived). -/
def Obligations.StepWritesOnlyTheDestination : Prop :=
  ∀ s t, step s = .next t → ∀ i, destination (decodeWord (fetchWord s)) ≠ some i → readReg t i = readReg s i

/-- Only an arithmetic instruction that completes writes a flag (decision D8). -/
def Obligations.OnlyArithmeticWritesFlags : Prop :=
  ∀ s t, step s = .next t →
    isArithmetic (decodeWord (fetchWord s)) = false ∨ t.running = false → t.flags = s.flags

/-- Only ST changes memory, and only the two bytes at its address. -/
def Obligations.OnlyStWritesMemory : Prop :=
  ∀ s t a, step s = .next t → t.mem.read a ≠ s.mem.read a →
    ∃ d r, decodeWord (fetchWord s) = .st d r ∧ canAccess (effectiveAddress s d) ∧
      (a = effectiveAddress s d ∨ a = effectiveAddress s d + 1)

/-- Where `pc` stands after a step that fetches: the table of rule R16 (derived); and no increment wraps. -/
def Obligations.StepPcFollowsTable : Prop :=
  ∀ s : State, s.running = true → s.pc.toNat + 1 < Config.memSize →
    (∃ t, step s = .next t ∧ t.pc = pcAfter (decodeWord (fetchWord s)) s) ∧
    (s.pc + 2).toNat = s.pc.toNat + 2 ∧
    (s.pc.toNat + 6 ≤ Config.memSize → (s.pc + 6).toNat = s.pc.toNat + 6)

/-- Faults are precise: a step that latches a fault changes no register, no flag and no byte of memory; `running` is cleared,
and the latch holds the word and the `pc` left, the instruction's address plus 2, or for a failed fetch no word and the
unadvanced `pc` (decisions D10, D11). -/
def Obligations.FaultsArePrecise : Prop :=
  ∀ s t r, s.fault = none → step s = .next t → t.fault = some r →
    t.regs = s.regs ∧ t.flags = s.flags ∧ t.mem = s.mem ∧ t.running = false ∧ r.fpc = t.pc ∧
    ((s.pc.toNat + 1 < Config.memSize ∧ t.pc = s.pc + 2 ∧ r.iw = some (fetchWord s)) ∨
      (Config.memSize ≤ s.pc.toNat + 1 ∧ t.pc = s.pc ∧ r.iw = none))

/-- A step of a running machine with no fault latched raises a fault exactly where the fetch check, then decode, then the
instruction's one check says so, and that kind (decisions D3, D4). -/
def Obligations.FaultsHaveTheirCauses : Prop :=
  ∀ s : State, s.running = true → s.fault = none →
    ∃ t, step s = .next t ∧ t.fault.map FaultRecord.kind = faultCause s

/-- Faulted is terminal: no step, no number of steps, no run and no power-on changes a faulted state (decision D12), and a
memory load changes its memory alone: the latch, `running`, `pc`, registers and flags stay. -/
def Obligations.FaultedIsTerminal : Prop :=
  ∀ s, StateInv s → s.fault ≠ none →
    (∀ k, steps k s = some s) ∧ (∀ limit fuel, run limit fuel s = some ⟨s, 0, false⟩) ∧ powerOn s = s ∧
    ∀ base image t, loadImage s base image = some t → t = { s with mem := t.mem }

/-- A step clears `running` only by HALT or by a fault, and no step sets it. -/
def Obligations.RunningIsClearedByHaltOrFault : Prop :=
  ∀ s t, step s = .next t →
    (t.running = true → s.running = true) ∧
    (s.running = true → t.running = false →
      (∃ b c, decodeWord (fetchWord s) = .halt b c) ∨ t.fault ≠ none)

/-- Power-on sets `running` unless a fault is latched, in which case it does nothing; no other state is touched
(decision D12). -/
def Obligations.PowerOnSetsRunning : Prop :=
  ∀ s : State, (s.fault = none → powerOn s = { s with running := true }) ∧ (s.fault ≠ none → powerOn s = s)

/-! ### The driver and the host -/

/-- A run with a step limit ends: not running, with at most that many steps executed; the limit was hit only if exactly that
many were executed, and then no fault is latched (decisions D14, D15). -/
def Obligations.LimitedRunEnds : Prop :=
  ∀ (n : Nat) (s : State), StateInv s →
    ∃ d, run (some n) (n + 1) s = some d ∧ d.engine.running = false ∧ d.steps ≤ n ∧
      (d.limitHit = true → d.steps = n ∧ d.engine.fault = none)

/-- A run that ends, with a limit or without, leaves a machine that is not running; it has executed as many steps as it
reports, each of them from a running state, and leaves the state they lead to, with `running` cleared by the driver where the
limit was hit. So without a hit limit the steps themselves ended the run (decisions D14, D15). A run ended well exactly if its
last step was a HALT (log entry 15), and a run called on a running machine ended well, by the limit, or badly. -/
def Obligations.RunExecutesTheStepsItReports : Prop :=
  ∀ (limit : Option Nat) (fuel : Nat) (s : State) (d : DriverState), run limit fuel s = some d →
    d.engine.running = false ∧
    (∃ t, steps d.steps s = some t ∧
      d.engine = (if d.limitHit = true then { t with running := false } else t) ∧
      (d.limitHit = true → t.running = true ∧ ∃ n, limit = some n ∧ d.steps = n)) ∧
    (∀ k, k < d.steps → ∃ u, steps k s = some u ∧ u.running = true) ∧
    (endedWell d ↔ ∃ k u, d.steps = k + 1 ∧ steps k s = some u ∧ haltsNext u) ∧
    (s.running = true → endedWell d ∨ endedByLimit d ∨ endedBadly d)

/-- A run of a machine that is not running executes nothing and reports (0, false); a limit of 0 stops a running machine
before its first step and reports (0, true) (decision D15). -/
def Obligations.RunWithNothingToDo : Prop :=
  (∀ (limit : Option Nat) (fuel : Nat) (s : State), s.running = false → run limit fuel s = some ⟨s, 0, false⟩) ∧
    ∀ s : State, s.running = true → run (some 0) 1 s = some ⟨{ s with running := false }, 0, true⟩

/-- A memory load that fits places its bytes and touches nothing else; one that does not fit has no result, the model's own
choice (log entry 11). -/
def Obligations.MemoryLoadPlacesBytes : Prop :=
  ∀ (s : State) (base : Nat) (image : List Byte),
    (base + image.length ≤ Config.memSize →
      ∃ t, loadImage s base image = some t ∧ t = { s with mem := t.mem } ∧
        (∀ k, (hk : k < image.length) → t.mem.read (base + k) = image[k]) ∧
        ∀ a, a < base ∨ base + image.length ≤ a → t.mem.read a = s.mem.read a) ∧
    (Config.memSize < base + image.length → loadImage s base image = none)
end

