-- ==== Sys2Proof/Laws/Decode.lean ====
section
/-! SUPPORT. The fields of a packed word, the word of its fields, and the sixteen values of a nibble. -/

namespace Sys2Proof

/-- Two words with the same bits are equal. -/
theorem half_ext {v w : Half} (h : ∀ i < 16, v.getLsbD i = w.getLsbD i) : v = w :=
  BitVec.eq_of_getLsbD_eq fun i hi => h i hi

/-- Bit `i` of a packed word, by field (R50). -/
theorem getLsbD_packFields (op a b c : Nibble) (i : Nat) :
    (packFields op a b c).getLsbD i =
      if i < 4 then c.getLsbD i else if i < 8 then b.getLsbD (i - 4)
      else if i < 12 then a.getLsbD (i - 8) else op.getLsbD (i - 12) := by
  have h8 : i - 4 < 4 ↔ i < 8 := by omega
  have h12 : i - (4 + 4) < 4 ↔ i < 12 := by omega
  simp only [packFields, BitVec.getLsbD_append, Nat.sub_sub, h8, h12]

@[simp] theorem fieldOpcode_packFields (op a b c : Nibble) : fieldOpcode (packFields op a b c) = op := by
  apply BitVec.eq_of_getLsbD_eq
  intro i hi
  simp [fieldOpcode, getLsbD_packFields, hi, show ¬12 + i < 4 by omega, show ¬12 + i < 8 by omega]

@[simp] theorem fieldA_packFields (op a b c : Nibble) : fieldA (packFields op a b c) = a := by
  apply BitVec.eq_of_getLsbD_eq
  intro i hi
  simp [fieldA, getLsbD_packFields, hi, show ¬8 + i < 4 by omega, show 8 + i < 12 by omega]

@[simp] theorem fieldB_packFields (op a b c : Nibble) : fieldB (packFields op a b c) = b := by
  apply BitVec.eq_of_getLsbD_eq
  intro i hi
  simp [fieldB, getLsbD_packFields, hi, show 4 + i < 8 by omega]

@[simp] theorem fieldC_packFields (op a b c : Nibble) : fieldC (packFields op a b c) = c := by
  apply BitVec.eq_of_getLsbD_eq
  intro i hi
  simp [fieldC, getLsbD_packFields, hi]

/-- A word is the pack of its fields (R50). -/
@[simp] theorem packFields_fields (w : Half) : packFields (fieldOpcode w) (fieldA w) (fieldB w) (fieldC w) = w := by
  apply half_ext
  intro i hi
  simp only [getLsbD_packFields, fieldOpcode, fieldA, fieldB, fieldC, BitVec.getLsbD_extractLsb']
  split
  · simp [*]
  · split
    · simp [show i - 4 < 4 by omega, show 4 + (i - 4) = i by omega]
    · split
      · simp [show i - 8 < 4 by omega, show 8 + (i - 8) = i by omega]
      · simp [show i - 12 < 4 by omega, show 12 + (i - 12) = i by omega]

/-- A word as a number, by field (R50). -/
theorem toNat_packFields (op a b c : Nibble) :
    (packFields op a b c).toNat = op.toNat * 4096 + a.toNat * 256 + b.toNat * 16 + c.toNat := by
  have ha := a.isLt
  have hb := b.isLt
  have hc := c.isLt
  simp only [packFields, BitVec.toNat_append, Nat.shiftLeft_eq]
  rw [← Nat.shiftLeft_eq, ← Nat.shiftLeft_add_eq_or_of_lt hc, ← Nat.shiftLeft_eq, ← Nat.shiftLeft_add_eq_or_of_lt hb,
    ← Nat.shiftLeft_eq, ← Nat.shiftLeft_add_eq_or_of_lt ha]
  simp only [Nat.shiftLeft_eq]
  omega

/-- Every word is a packed word. -/
theorem exists_packFields (w : Half) : ∃ op a b c, w = packFields op a b c :=
  ⟨_, _, _, _, (packFields_fields w).symm⟩

/-- Decoding a packed word (R54, R55). -/
@[simp] theorem decodeWord_packFields (op a b c : Nibble) :
    decodeWord (packFields op a b c) = decodeFields op a b c := by
  simp [decodeWord]

/-- Two bytes as a number, the high byte first (20_memory.md R36). -/
theorem toNat_append_bytes (hi lo : Byte) : (hi ++ lo : Half).toNat = hi.toNat * 256 + lo.toNat := by
  rw [BitVec.toNat_append, ← Nat.shiftLeft_add_eq_or_of_lt lo.isLt, Nat.shiftLeft_eq]

/-- What holds of the sixteen nibbles holds of every nibble. -/
theorem nibble_cases {p : Nibble → Prop} (h : ∀ k : Fin 16, p (BitVec.ofFin k)) (x : Nibble) : p x := h x.toFin

end Sys2Proof
end

