-- ==== Sys2Proof/Laws/Memory.lean ====
section
/-! SUPPORT. The laws of memory: a read after a write, two memories with the same bytes listed are equal, and every operation
keeps the canonical form. -/

namespace Sys2Proof.Machine

/-- What is listed after a write (20_memory.md R31). -/
theorem Memory.lookup_write (m : Memory) (a x : Nat) (v : Byte) :
    (m.write a v).lookup x = if x = a then some v else m.lookup x := by
  induction m with
  | nil => simp [Memory.write, Memory.lookup, eq_comm]
  | cons c m ih =>
    obtain ⟨b, w⟩ := c
    simp only [Memory.write]
    split
    · simp only [Memory.lookup, eq_comm]
    · split
      · subst_vars
        simp only [Memory.lookup, eq_comm]
        split <;> simp_all
      · simp only [Memory.lookup, ih]
        split <;> split <;> simp_all

/-- A read after a write: the byte written at its address, the old byte everywhere else (R31). -/
theorem Memory.read_write (m : Memory) (a x : Nat) (v : Byte) :
    (m.write a v).read x = if x = a then v else m.read x := by
  simp only [Memory.read, Memory.lookup_write]
  split <;> simp

@[simp] theorem Memory.read_write_same (m : Memory) (a : Nat) (v : Byte) : (m.write a v).read a = v := by
  simp [Memory.read_write]

theorem Memory.read_write_other (m : Memory) {a x : Nat} (v : Byte) (h : x ≠ a) : (m.write a v).read x = m.read x := by
  simp [Memory.read_write, h]

/-- The bytes after a 16-bit write (R34). -/
theorem Memory.read_write16 (m : Memory) (a x : Nat) (v : Half) :
    (m.write16 a v).read x =
      if x = a then v.extractLsb' 8 8 else if x = a + 1 then v.extractLsb' 0 8 else m.read x := by
  simp only [Memory.write16, Memory.read_write]
  split <;> split <;> first | rfl | omega

/-- A 16-bit read after a 16-bit write to the same address (43_ext_memory.md R123). -/
@[simp] theorem Memory.read16_write16_same (m : Memory) (a : Nat) (v : Half) : (m.write16 a v).read16 a = v := by
  simp only [Memory.read16, Memory.read_write16, if_true, Nat.succ_ne_self, if_false]
  apply BitVec.eq_of_getLsbD_eq
  intro i hi
  simp only [BitVec.getLsbD_append, BitVec.getLsbD_extractLsb']
  split
  · simp [*]
  · simp [show i - 8 < 8 by omega, show 8 + (i - 8) = i by omega]

/-- Every address a write leaves listed was listed or is the one written. -/
theorem Memory.mem_write {m : Memory} {a : Nat} {v : Byte} {c : Host.Cell} (h : c ∈ m.write a v) :
    c = (a, v) ∨ c ∈ m := by
  induction m with
  | nil => simpa [Memory.write] using h
  | cons d m ih =>
    obtain ⟨b, w⟩ := d
    simp only [Memory.write] at h
    split at h
    · simpa using h
    · split at h
      · simp only [List.mem_cons] at h ⊢
        tauto
      · simp only [List.mem_cons] at h ⊢
        rcases h with h | h
        · exact .inr (.inl h)
        · rcases ih h with h | h <;> tauto

theorem Memory.sorted_write {m : Memory} (a : Nat) (v : Byte) (h : m.Pairwise (fun c d => c.1 < d.1)) :
    (m.write a v).Pairwise (fun c d => c.1 < d.1) := by
  induction m with
  | nil => simp [Memory.write]
  | cons d m ih =>
    obtain ⟨b, w⟩ := d
    obtain ⟨hb, hm⟩ := List.pairwise_cons.1 h
    simp only [Memory.write]
    split
    · next hlt =>
      refine List.pairwise_cons.2 ⟨fun c hc => ?_, h⟩
      rcases List.mem_cons.1 hc with rfl | hc
      · exact hlt
      · exact lt_trans hlt (hb c hc)
    · next hge =>
      split
      · next heq =>
        subst heq
        exact List.pairwise_cons.2 ⟨hb, hm⟩
      · next hne =>
        refine List.pairwise_cons.2 ⟨fun c hc => ?_, ih hm⟩
        rcases Memory.mem_write hc with rfl | hc
        · show b < a
          omega
        · exact hb c hc

/-- A write inside memory keeps the canonical form. -/
theorem Memory.wf_write {m : Memory} {a : Nat} (v : Byte) (h : m.wf) (ha : a < Config.memSize) : (m.write a v).wf := by
  refine ⟨Memory.sorted_write a v h.1, fun c hc => ?_⟩
  rcases Memory.mem_write hc with rfl | hc
  · exact ha
  · exact h.2 c hc

/-- A 16-bit write inside memory keeps the canonical form. -/
theorem Memory.wf_write16 {m : Memory} {a : Nat} (v : Half) (h : m.wf) (ha : a + 1 < Config.memSize) :
    (m.write16 a v).wf :=
  Memory.wf_write _ (Memory.wf_write _ h (by omega)) ha

/-- Placing bytes keeps the canonical form, whatever the address. -/
theorem Memory.wf_place {m : Memory} (a : Nat) (bytes : List Byte) (h : m.wf) : (m.place a bytes).wf := by
  induction bytes generalizing m a with
  | nil => exact h
  | cons v vs ih =>
    simp only [Memory.place]
    split
    · next ha => exact ih (a + 1) (Memory.wf_write v h ha)
    · exact ih (a + 1) h

/-- The empty memory is in canonical form. -/
theorem Memory.wf_nil : Memory.wf [] := by simp [Memory.wf]

theorem Memory.lookup_eq_none {m : Memory} {a : Nat} (h : ∀ c ∈ m, a < c.1) : m.lookup a = none := by
  induction m with
  | nil => rfl
  | cons c m ih =>
    obtain ⟨b, w⟩ := c
    have hb : a < b := h (b, w) (by simp)
    simp only [Memory.lookup, if_neg (show ¬b = a by omega)]
    exact ih fun c hc => h c (by simp [hc])

/-- Equal memories are equal data: two memories in canonical form that list the same byte at every address are one list. -/
theorem Memory.ext_lookup {m n : Memory} (hm : m.wf) (hn : n.wf) (h : ∀ a, m.lookup a = n.lookup a) : m = n := by
  suffices H : ∀ {m n : Memory}, m.Pairwise (fun c d => c.1 < d.1) → n.Pairwise (fun c d => c.1 < d.1) →
      (∀ a, m.lookup a = n.lookup a) → m = n from H hm.1 hn.1 h
  clear hm hn h m n
  intro m
  induction m with
  | nil =>
    intro n _ _ h
    cases n with
    | nil => rfl
    | cons d n => simpa [Memory.lookup] using h d.1
  | cons c m ih =>
    intro n hm hn h
    obtain ⟨b, w⟩ := c
    obtain ⟨hb, hm'⟩ := List.pairwise_cons.1 hm
    cases n with
    | nil => simpa [Memory.lookup] using h b
    | cons d n =>
      obtain ⟨b', w'⟩ := d
      obtain ⟨hb', hn'⟩ := List.pairwise_cons.1 hn
      have hbb : b = b' := by
        rcases Nat.lt_trichotomy b b' with hlt | heq | hgt
        · have := h b
          rw [Memory.lookup, if_pos rfl, Memory.lookup_eq_none (m := (b', w') :: n)] at this
          · cases this
          · intro c hc
            rcases List.mem_cons.1 hc with rfl | hc
            · exact hlt
            · exact lt_trans hlt (hb' c hc)
        · exact heq
        · have := h b'
          rw [Memory.lookup_eq_none (m := (b, w) :: m), Memory.lookup, if_pos rfl] at this
          · cases this
          · intro c hc
            rcases List.mem_cons.1 hc with rfl | hc
            · exact hgt
            · exact lt_trans hgt (hb c hc)
      subst hbb
      have hw : w = w' := by simpa [Memory.lookup] using h b
      subst hw
      refine congrArg _ (ih hm' hn' fun a => ?_)
      by_cases ha : b = a
      · subst ha
        rw [Memory.lookup_eq_none hb, Memory.lookup_eq_none hb']
      · simpa [Memory.lookup, ha] using h a

end Sys2Proof.Machine
end

