-- ==== Sys2Proof/Laws/State.lean ====
section
/-! SUPPORT. One lemma per field for every operation that updates the state, so that no proof unfolds a record update. -/

namespace Sys2Proof.Machine

@[simp] theorem writeReg_regs (s : State) (i : Nibble) (v : Word) : (writeReg s i v).regs = s.regs.set i.toNat v i.isLt := rfl
@[simp] theorem writeReg_pc (s : State) (i : Nibble) (v : Word) : (writeReg s i v).pc = s.pc := rfl
@[simp] theorem writeReg_flags (s : State) (i : Nibble) (v : Word) : (writeReg s i v).flags = s.flags := rfl
@[simp] theorem writeReg_running (s : State) (i : Nibble) (v : Word) : (writeReg s i v).running = s.running := rfl
@[simp] theorem writeReg_fault (s : State) (i : Nibble) (v : Word) : (writeReg s i v).fault = s.fault := rfl
@[simp] theorem writeReg_mem (s : State) (i : Nibble) (v : Word) : (writeReg s i v).mem = s.mem := rfl

@[simp] theorem setPc_regs (s : State) (v : Word) : (setPc s v).regs = s.regs := rfl
@[simp] theorem setPc_pc (s : State) (v : Word) : (setPc s v).pc = v := rfl
@[simp] theorem setPc_flags (s : State) (v : Word) : (setPc s v).flags = s.flags := rfl
@[simp] theorem setPc_running (s : State) (v : Word) : (setPc s v).running = s.running := rfl
@[simp] theorem setPc_fault (s : State) (v : Word) : (setPc s v).fault = s.fault := rfl
@[simp] theorem setPc_mem (s : State) (v : Word) : (setPc s v).mem = s.mem := rfl

@[simp] theorem advancePc_regs (s : State) (n : Word) : (advancePc s n).regs = s.regs := rfl
@[simp] theorem advancePc_pc (s : State) (n : Word) : (advancePc s n).pc = s.pc + n := rfl
@[simp] theorem advancePc_flags (s : State) (n : Word) : (advancePc s n).flags = s.flags := rfl
@[simp] theorem advancePc_running (s : State) (n : Word) : (advancePc s n).running = s.running := rfl
@[simp] theorem advancePc_fault (s : State) (n : Word) : (advancePc s n).fault = s.fault := rfl
@[simp] theorem advancePc_mem (s : State) (n : Word) : (advancePc s n).mem = s.mem := rfl

@[simp] theorem setFlags_regs (s : State) (f : Flags) : (setFlags s f).regs = s.regs := rfl
@[simp] theorem setFlags_pc (s : State) (f : Flags) : (setFlags s f).pc = s.pc := rfl
@[simp] theorem setFlags_flags (s : State) (f : Flags) : (setFlags s f).flags = f := rfl
@[simp] theorem setFlags_running (s : State) (f : Flags) : (setFlags s f).running = s.running := rfl
@[simp] theorem setFlags_fault (s : State) (f : Flags) : (setFlags s f).fault = s.fault := rfl
@[simp] theorem setFlags_mem (s : State) (f : Flags) : (setFlags s f).mem = s.mem := rfl

@[simp] theorem setRunning_regs (s : State) (b : Bool) : (setRunning s b).regs = s.regs := rfl
@[simp] theorem setRunning_pc (s : State) (b : Bool) : (setRunning s b).pc = s.pc := rfl
@[simp] theorem setRunning_flags (s : State) (b : Bool) : (setRunning s b).flags = s.flags := rfl
@[simp] theorem setRunning_running (s : State) (b : Bool) : (setRunning s b).running = b := rfl
@[simp] theorem setRunning_fault (s : State) (b : Bool) : (setRunning s b).fault = s.fault := rfl
@[simp] theorem setRunning_mem (s : State) (b : Bool) : (setRunning s b).mem = s.mem := rfl

@[simp] theorem setMem_regs (s : State) (m : Memory) : (setMem s m).regs = s.regs := rfl
@[simp] theorem setMem_pc (s : State) (m : Memory) : (setMem s m).pc = s.pc := rfl
@[simp] theorem setMem_flags (s : State) (m : Memory) : (setMem s m).flags = s.flags := rfl
@[simp] theorem setMem_running (s : State) (m : Memory) : (setMem s m).running = s.running := rfl
@[simp] theorem setMem_fault (s : State) (m : Memory) : (setMem s m).fault = s.fault := rfl
@[simp] theorem setMem_mem (s : State) (m : Memory) : (setMem s m).mem = m := rfl

@[simp] theorem raise_regs (k : FaultKind) (iw : Option Half) (s : State) : (raise k iw s).regs = s.regs := rfl
@[simp] theorem raise_pc (k : FaultKind) (iw : Option Half) (s : State) : (raise k iw s).pc = s.pc := rfl
@[simp] theorem raise_flags (k : FaultKind) (iw : Option Half) (s : State) : (raise k iw s).flags = s.flags := rfl
@[simp] theorem raise_running (k : FaultKind) (iw : Option Half) (s : State) : (raise k iw s).running = false := rfl
@[simp] theorem raise_fault (k : FaultKind) (iw : Option Half) (s : State) : (raise k iw s).fault = some ⟨k, iw, s.pc⟩ := rfl
@[simp] theorem raise_mem (k : FaultKind) (iw : Option Half) (s : State) : (raise k iw s).mem = s.mem := rfl

@[simp] theorem afterFetch_regs (s : State) : (afterFetch s).regs = s.regs := rfl
@[simp] theorem afterFetch_pc (s : State) : (afterFetch s).pc = s.pc + 2 := rfl
@[simp] theorem afterFetch_flags (s : State) : (afterFetch s).flags = s.flags := rfl
@[simp] theorem afterFetch_running (s : State) : (afterFetch s).running = s.running := rfl
@[simp] theorem afterFetch_fault (s : State) : (afterFetch s).fault = s.fault := rfl
@[simp] theorem afterFetch_mem (s : State) : (afterFetch s).mem = s.mem := rfl

/-! What a register reads after each operation. -/

theorem readReg_writeReg (s : State) (i j : Nibble) (v : Word) :
    readReg (writeReg s i v) j = if j = i then v else readReg s j := by
  simp only [readReg, writeReg, Vector.getElem_set]
  split <;> split <;> simp_all [BitVec.toNat_inj]

@[simp] theorem readReg_writeReg_same (s : State) (i : Nibble) (v : Word) : readReg (writeReg s i v) i = v := by
  simp [readReg_writeReg]

theorem readReg_writeReg_other (s : State) {i j : Nibble} (v : Word) (h : j ≠ i) :
    readReg (writeReg s i v) j = readReg s j := by
  simp [readReg_writeReg, h]

@[simp] theorem readReg_setPc (s : State) (v : Word) (j : Nibble) : readReg (setPc s v) j = readReg s j := rfl
@[simp] theorem readReg_advancePc (s : State) (n : Word) (j : Nibble) : readReg (advancePc s n) j = readReg s j := rfl
@[simp] theorem readReg_setFlags (s : State) (f : Flags) (j : Nibble) : readReg (setFlags s f) j = readReg s j := rfl
@[simp] theorem readReg_setRunning (s : State) (b : Bool) (j : Nibble) : readReg (setRunning s b) j = readReg s j := rfl
@[simp] theorem readReg_setMem (s : State) (m : Memory) (j : Nibble) : readReg (setMem s m) j = readReg s j := rfl
@[simp] theorem readReg_raise (k : FaultKind) (iw : Option Half) (s : State) (j : Nibble) : readReg (raise k iw s) j = readReg s j := rfl
@[simp] theorem readReg_afterFetch (s : State) (j : Nibble) : readReg (afterFetch s) j = readReg s j := rfl

/-- The reset state, register by register (10_state.md R27). -/
@[simp] theorem readReg_reset (i : Nibble) : readReg State.reset i = 0 := by
  simp [readReg, State.reset]

/-- Registers that read the same are the same. -/
theorem regs_ext {s t : State} (h : ∀ i, readReg t i = readReg s i) : t.regs = s.regs := by
  apply Vector.ext
  intro k hk
  have := h (BitVec.ofNat 4 k)
  simpa [readReg, Nat.mod_eq_of_lt hk] using this

end Sys2Proof.Machine
end

