-- ==== Sys2Proof/Laws/Step.lean ====
section
/-! SUPPORT. What a jump, an instruction and a step can do, each said once: later proofs cite these and unfold neither `exec`
nor `step`. -/

namespace Sys2Proof.Machine

open Sys2Proof.Safety

/-- A jump leaves the state alone or writes `pc` (42_ext_control.md R113). -/
theorem jumpIf_cases (cond : Bool) (r : Nibble) (s : State) :
    (cond = true ∧ jumpIf cond r s = setPc s (readReg s r)) ∨ (cond = false ∧ jumpIf cond r s = s) := by
  cases cond <;> simp [jumpIf, jumpTarget]

/-- A jump under a condition that means `p`. -/
theorem jumpIf_eq {cond : Bool} {p : Prop} [Decidable p] (h : cond = true ↔ p) (r : Nibble) (s : State) :
    jumpIf cond r s = if p then setPc s (readReg s r) else s := by
  obtain ⟨hc, h'⟩ | ⟨hc, h'⟩ := jumpIf_cases cond r s
  · rw [h', if_pos (h.1 hc)]
  · rw [h', if_neg fun hp => by simp [h.2 hp] at hc]

/-- Where and why an instruction raises a fault in its execute phase (60_exceptions.md R130, R142). -/
inductive RaisesFault (s : State) : Instr → FaultKind → Prop where
  | unknown (i : Instr) (h : i.isUnknown = true) : RaisesFault s i .unknownOpcode
  | noImmediate (d b c : Nibble) (h : ¬ ldiFits s) : RaisesFault s (.ldi d b c) .insufficientImmediateSpace
  | zeroDivisor (d s1 s2 : Nibble) (h : readReg s s2 = 0) : RaisesFault s (.div d s1 s2) .divideByZero
  | badLoad (d r : Nibble) (h : ¬ canAccess (effectiveAddress s r)) : RaisesFault s (.ld d r) .outOfBoundsAccess
  | badStore (d r : Nibble) (h : ¬ canAccess (effectiveAddress s d)) : RaisesFault s (.st d r) .outOfBoundsAccess

/-- Every state an instruction can lead to from `s`, by what it changes. -/
inductive Effect (s : State) : Instr → State → Prop where
  | fault (i : Instr) (k : FaultKind) (h : RaisesFault s i k) : Effect s i (raise k (some (encode i)) s)
  | move (i : Instr) (d : Nibble) (v : Word) (hd : destination i = some d) (ha : isArithmetic i = false) :
      Effect s i (writeReg s d v)
  | immediate (d b c : Nibble) (h : ldiFits s) :
      Effect s (.ldi d b c) (advancePc (writeReg s d (ldiImmediate s)) 4)
  | arithmetic (i : Instr) (d : Nibble) (v : Word) (f : Flags) (hd : destination i = some d)
      (ha : isArithmetic i = true) : Effect s i (setFlags (writeReg s d v) f)
  | nothing (i : Instr) (hd : destination i = none) : Effect s i s
  | jump (i : Instr) (target : Word) (hd : destination i = none) : Effect s i (setPc s target)
  | halt (b c : Nibble) : Effect s (.halt b c) (setRunning s false)
  | store (d r : Nibble) (h : canAccess (effectiveAddress s d)) :
      Effect s (.st d r) (setMem s (s.mem.write16 (effectiveAddress s d) (storeDatum s r)))

theorem effect_jumpIf (i : Instr) (cond : Bool) (r : Nibble) (s : State) (hd : destination i = none) :
    Effect s i (jumpIf cond r s) := by
  obtain ⟨-, h⟩ | ⟨-, h⟩ := jumpIf_cases cond r s <;> rw [h]
  · exact .jump _ _ hd
  · exact .nothing _ hd

/-- What an instruction that answers a next state can have done. -/
theorem exec_effect {i : Instr} {s t : State} (h : exec i s = .next t) : Effect s i t := by
  cases i with
  | mov d h' l => cases h; exact .move _ d _ rfl rfl
  | ldi d b c =>
    simp only [exec, execLdi] at h
    split at h <;> cases h
    · exact .immediate d b c ‹_›
    · exact .fault _ _ (.noImmediate d b c ‹_›)
  | add d s1 s2 => cases h; exact .arithmetic _ d _ _ rfl rfl
  | sub d s1 s2 => cases h; exact .arithmetic _ d _ _ rfl rfl
  | mult d s1 s2 => cases h; exact .arithmetic _ d _ _ rfl rfl
  | div d s1 s2 =>
    simp only [exec, execDiv] at h
    split at h <;> cases h
    · exact .fault _ _ (.zeroDivisor d s1 s2 ‹_›)
    · exact .arithmetic _ d _ _ rfl rfl
  | nop b c => cases h; exact .nothing _ rfl
  | halt b c => cases h; exact .halt b c
  | jmp r c => cases h; exact .jump _ _ rfl
  | jz r c => cases h; exact effect_jumpIf _ _ _ _ rfl
  | jnz r c => cases h; exact effect_jumpIf _ _ _ _ rfl
  | jc r c => cases h; exact effect_jumpIf _ _ _ _ rfl
  | jnc r c => cases h; exact effect_jumpIf _ _ _ _ rfl
  | js r c => cases h; exact effect_jumpIf _ _ _ _ rfl
  | jns r c => cases h; exact effect_jumpIf _ _ _ _ rfl
  | jo r c => cases h; exact effect_jumpIf _ _ _ _ rfl
  | jno r c => cases h; exact effect_jumpIf _ _ _ _ rfl
  | jlt r c => cases h; exact effect_jumpIf _ _ _ _ rfl
  | jgt r c => cases h; exact effect_jumpIf _ _ _ _ rfl
  | ld d r =>
    simp only [exec, execLd] at h
    split at h <;> cases h
    · exact .move _ d _ rfl rfl
    · exact .fault _ _ (.badLoad d r ‹_›)
  | st d r =>
    simp only [exec, execSt] at h
    split at h <;> cases h
    · exact .store d r ‹_›
    · exact .fault _ _ (.badStore d r ‹_›)
  | unknownExtF b c => cases h; exact .fault _ _ (.unknown _ rfl)
  | unknownBase7 a b c => cases h; exact .fault _ _ (.unknown _ rfl)
  | unknownBase8ToF op a b c => cases h; exact .fault _ _ (.unknown _ rfl)

/-- What a step that answers a next state can have done (30_encoding.md R53). -/
theorem step_cases {s t : State} (h : step s = .next t) :
    (s.running = false ∧ t = s) ∨
    (s.running = true ∧ ¬ canFetch s ∧ t = raise .outOfBoundsFetch none s) ∨
    (s.running = true ∧ canFetch s ∧ exec (decodeWord (fetchWord s)) (afterFetch s) = .next t) := by
  unfold step at h
  split at h
  · split at h
    · exact .inr (.inr ⟨‹_›, ‹_›, h⟩)
    · cases h
      exact .inr (.inl ⟨‹_›, ‹_›, rfl⟩)
  · cases h
    exact .inl ⟨by simp_all, rfl⟩

/-- The step of a running machine whose word lies in memory (R52, R53). -/
theorem step_fetched {s : State} (hr : s.running = true) (hf : canFetch s) :
    step s = exec (decodeWord (fetchWord s)) (afterFetch s) := by
  simp only [step, hr, if_true, if_pos hf]

end Sys2Proof.Machine
end

