-- ==== Sys2Proof/Laws/Driver.lean ====
section
/-! SUPPORT. What one turn of the step driver can do, and what reset and a memory load leave. -/

namespace Sys2Proof.Machine

@[simp] theorem resetWith_mem (launch : Memory) : (State.resetWith launch).mem = launch := rfl
@[simp] theorem resetWith_pc (launch : Memory) : (State.resetWith launch).pc = 0 := rfl
@[simp] theorem resetWith_running (launch : Memory) : (State.resetWith launch).running = false := rfl
@[simp] theorem resetWith_fault (launch : Memory) : (State.resetWith launch).fault = none := rfl

/-- A turn stops at the limit or executes one step and counts it (70_reset_and_hazards.md R167, R168). -/
theorem driverTurn_cases {limit : Option Nat} {d e : DriverState} (h : driverTurn limit d = some e) :
    (limitReached limit d.steps = true ∧ e = ⟨setRunning d.engine false, d.steps, true⟩) ∨
    (limitReached limit d.steps = false ∧ ∃ t, step d.engine = .next t ∧ e = ⟨t, d.steps + 1, d.limitHit⟩) := by
  unfold driverTurn at h
  split at h
  · cases h
    exact .inl ⟨‹_›, rfl⟩
  · split at h
    · next t ht =>
      cases h
      exact .inr ⟨by simp_all, t, ht, rfl⟩
    · cases h
    · cases h

/-- A load places its bytes in the memory and changes nothing else (R165). -/
theorem loadImage_cases {s t : State} {base : Nat} {image : List Byte} (h : loadImage s base image = some t) :
    inMemory base image.length ∧ t = setMem s (s.mem.place base image) := by
  unfold loadImage at h
  split at h
  · cases h
    exact ⟨‹_›, rfl⟩
  · cases h

end Sys2Proof.Machine
end

