-- ==== Sys2Proof/Laws/Flags.lean ====
section
/-! SUPPORT. The exact-then-narrowed results and flags of Machine/Flags.lean as bit vector arithmetic. -/

namespace Sys2Proof.Machine

/-- The stored sum is the sum mod 2^32 (41_base_arithmetic.md R82). -/
theorem addResult_eq (a b : Word) : addResult a b = a + b := by
  apply BitVec.eq_of_toNat_eq
  simp [addResult, addWide, BitVec.toNat_add]

/-- The stored difference is the difference mod 2^32 (R83). -/
theorem subResult_eq (a b : Word) : subResult a b = a - b := by
  apply BitVec.eq_of_toNat_eq
  have := a.isLt
  have := b.isLt
  simp only [subResult, BitVec.toNat_ofInt, BitVec.toNat_sub]
  omega

/-- The stored product is the product mod 2^32 (R84). -/
theorem multResult_eq (a b : Word) : multResult a b = a * b := by
  apply BitVec.eq_of_toNat_eq
  simp [multResult, BitVec.toNat_mul]

/-- No quotient exceeds 32 bits (R85). -/
theorem divQuotient_lt (a b : Word) : divQuotient a b < 2 ^ 32 :=
  lt_of_le_of_lt (Nat.div_le_self _ _) a.isLt

/-- The stored quotient is the unsigned quotient (R85). -/
theorem divResult_eq (a b : Word) : divResult a b = a / b := by
  apply BitVec.eq_of_toNat_eq
  have := divQuotient_lt a b
  simp only [divQuotient] at this
  simp only [divResult, divQuotient, BitVec.toNat_udiv, BitVec.toNat_ofNat, Nat.mod_eq_of_lt this]

/-- Bit 32 of the exact sum is the carry out (R82). -/
theorem addWide_testBit (a b : Word) : (addWide a b).testBit 32 = decide (2 ^ 32 ≤ a.toNat + b.toNat) := by
  have := a.isLt
  have := b.isLt
  simp only [addWide, Nat.testBit_eq_decide_div_mod_eq]
  apply decide_eq_decide.2
  omega

theorem zeroFlag_eq (r : Word) : zeroFlag r = decide (r = 0) := rfl

theorem signFlag_eq (r : Word) : signFlag r = r.msb := by
  simp [signFlag, BitVec.msb_eq_getLsbD_last]

/-- Overflow in words: both operands have one sign and the result the other (R80). -/
theorem overflowFlag_eq (a b r : Word) : overflowFlag a b r = decide (a.msb = b.msb ∧ r.msb ≠ a.msb) := by
  simp only [overflowFlag, BitVec.getLsbD_and, BitVec.getLsbD_xor, BitVec.msb_eq_getLsbD_last]
  cases a.getLsbD 31 <;> cases b.getLsbD 31 <;> cases r.getLsbD 31 <;> rfl

end Sys2Proof.Machine
end

