-- ==== Sys2Proof/Laws/PerInstr.lean ====
section
/-! SUPPORT. Facts about the instructions as syntax, one lemma for each constructor. -/

namespace Sys2Proof.Laws.Length

/-- The length of a well-formed instruction can be told from the opcode field of its word (30_encoding.md R61). -/
def Statement (i : Instr) : Prop :=
  i.wellFormed = true → i.lengthBytes = if fieldOpcode (encode i) = 2 then 6 else 2

theorem mov (d h l : Nibble) : Statement (.mov d h l) := fun _ => by simp [encode, Instr.lengthBytes]
theorem ldi (d b c : Nibble) : Statement (.ldi d b c) := fun _ => by simp [encode, Instr.lengthBytes]
theorem add (d s1 s2 : Nibble) : Statement (.add d s1 s2) := fun _ => by simp [encode, Instr.lengthBytes]
theorem sub (d s1 s2 : Nibble) : Statement (.sub d s1 s2) := fun _ => by simp [encode, Instr.lengthBytes]
theorem mult (d s1 s2 : Nibble) : Statement (.mult d s1 s2) := fun _ => by simp [encode, Instr.lengthBytes]
theorem div (d s1 s2 : Nibble) : Statement (.div d s1 s2) := fun _ => by simp [encode, Instr.lengthBytes]
theorem nop (b c : Nibble) : Statement (.nop b c) := fun _ => by simp [encode, Instr.lengthBytes]
theorem halt (b c : Nibble) : Statement (.halt b c) := fun _ => by simp [encode, Instr.lengthBytes]
theorem jmp (r c : Nibble) : Statement (.jmp r c) := fun _ => by simp [encode, Instr.lengthBytes]
theorem jz (r c : Nibble) : Statement (.jz r c) := fun _ => by simp [encode, Instr.lengthBytes]
theorem jnz (r c : Nibble) : Statement (.jnz r c) := fun _ => by simp [encode, Instr.lengthBytes]
theorem jc (r c : Nibble) : Statement (.jc r c) := fun _ => by simp [encode, Instr.lengthBytes]
theorem jnc (r c : Nibble) : Statement (.jnc r c) := fun _ => by simp [encode, Instr.lengthBytes]
theorem js (r c : Nibble) : Statement (.js r c) := fun _ => by simp [encode, Instr.lengthBytes]
theorem jns (r c : Nibble) : Statement (.jns r c) := fun _ => by simp [encode, Instr.lengthBytes]
theorem jo (r c : Nibble) : Statement (.jo r c) := fun _ => by simp [encode, Instr.lengthBytes]
theorem jno (r c : Nibble) : Statement (.jno r c) := fun _ => by simp [encode, Instr.lengthBytes]
theorem jlt (r c : Nibble) : Statement (.jlt r c) := fun _ => by simp [encode, Instr.lengthBytes]
theorem jgt (r c : Nibble) : Statement (.jgt r c) := fun _ => by simp [encode, Instr.lengthBytes]
theorem ld (d s : Nibble) : Statement (.ld d s) := fun _ => by simp [encode, Instr.lengthBytes]
theorem st (d s : Nibble) : Statement (.st d s) := fun _ => by simp [encode, Instr.lengthBytes]
theorem unknownExtF (b c : Nibble) : Statement (.unknownExtF b c) := fun _ => by simp [encode, Instr.lengthBytes]
theorem unknownBase7 (a b c : Nibble) : Statement (.unknownBase7 a b c) := fun _ => by simp [encode, Instr.lengthBytes]
theorem unknownBase8ToF (op a b c : Nibble) : Statement (.unknownBase8ToF op a b c) := by
  intro h
  have hop : op ≠ 2 := by
    rintro rfl
    simp [Instr.wellFormed, isHighOpcode] at h
  simpa [encode, Instr.lengthBytes] using hop

end Sys2Proof.Laws.Length

namespace Sys2Proof.Laws.Canonical

/-- The canonical form is one: it is its own, it is well-formed where the instruction is, and it has the instruction's length
(30_encoding.md R59, R61). -/
def Statement (i : Instr) : Prop :=
  i.canonical.canonical = i.canonical ∧ i.canonical.wellFormed = i.wellFormed ∧ i.canonical.lengthBytes = i.lengthBytes

theorem mov (d h l : Nibble) : Statement (.mov d h l) := ⟨rfl, rfl, rfl⟩
theorem ldi (d b c : Nibble) : Statement (.ldi d b c) := ⟨rfl, rfl, rfl⟩
theorem add (d s1 s2 : Nibble) : Statement (.add d s1 s2) := ⟨rfl, rfl, rfl⟩
theorem sub (d s1 s2 : Nibble) : Statement (.sub d s1 s2) := ⟨rfl, rfl, rfl⟩
theorem mult (d s1 s2 : Nibble) : Statement (.mult d s1 s2) := ⟨rfl, rfl, rfl⟩
theorem div (d s1 s2 : Nibble) : Statement (.div d s1 s2) := ⟨rfl, rfl, rfl⟩
theorem nop (b c : Nibble) : Statement (.nop b c) := ⟨rfl, rfl, rfl⟩
theorem halt (b c : Nibble) : Statement (.halt b c) := ⟨rfl, rfl, rfl⟩
theorem jmp (r c : Nibble) : Statement (.jmp r c) := ⟨rfl, rfl, rfl⟩
theorem jz (r c : Nibble) : Statement (.jz r c) := ⟨rfl, rfl, rfl⟩
theorem jnz (r c : Nibble) : Statement (.jnz r c) := ⟨rfl, rfl, rfl⟩
theorem jc (r c : Nibble) : Statement (.jc r c) := ⟨rfl, rfl, rfl⟩
theorem jnc (r c : Nibble) : Statement (.jnc r c) := ⟨rfl, rfl, rfl⟩
theorem js (r c : Nibble) : Statement (.js r c) := ⟨rfl, rfl, rfl⟩
theorem jns (r c : Nibble) : Statement (.jns r c) := ⟨rfl, rfl, rfl⟩
theorem jo (r c : Nibble) : Statement (.jo r c) := ⟨rfl, rfl, rfl⟩
theorem jno (r c : Nibble) : Statement (.jno r c) := ⟨rfl, rfl, rfl⟩
theorem jlt (r c : Nibble) : Statement (.jlt r c) := ⟨rfl, rfl, rfl⟩
theorem jgt (r c : Nibble) : Statement (.jgt r c) := ⟨rfl, rfl, rfl⟩
theorem ld (d s : Nibble) : Statement (.ld d s) := ⟨rfl, rfl, rfl⟩
theorem st (d s : Nibble) : Statement (.st d s) := ⟨rfl, rfl, rfl⟩
theorem unknownExtF (b c : Nibble) : Statement (.unknownExtF b c) := ⟨rfl, rfl, rfl⟩
theorem unknownBase7 (a b c : Nibble) : Statement (.unknownBase7 a b c) := ⟨rfl, rfl, rfl⟩
theorem unknownBase8ToF (op a b c : Nibble) : Statement (.unknownBase8ToF op a b c) := ⟨rfl, rfl, rfl⟩

end Sys2Proof.Laws.Canonical
end

