-- ==== Sys2Proof/Machine/Assembly.lean ====
section
/-! DEFINITION. The assembler syntax of 30_encoding.md R62: the text of an instruction and the bytes an assembler emits for
it. The machine does not depend on it (decision D16). -/

namespace Sys2Proof.Machine

/-- `R0` to `R15`, decimal (R62). -/
def registerName (i : Nibble) : String := "R" ++ toString i.toNat

/-- `MNEMONIC Rd, Rs1, Rs2`. -/
def threeRegisters (mnemonic : String) (d s1 s2 : Nibble) : String :=
  mnemonic ++ " " ++ registerName d ++ ", " ++ registerName s1 ++ ", " ++ registerName s2

/-- `MNEMONIC Rr`. -/
def oneRegister (mnemonic : String) (r : Nibble) : String := mnemonic ++ " " ++ registerName r

/-- The text of an instruction (R62), immediates in decimal; `imm` is LDI's. The illegal words have none. -/
def assemblyText (i : Instr) (imm : Word) : Option String :=
  match i with
  | .mov d h l => some ("MOV " ++ registerName d ++ ", " ++ toString (h ++ l : BitVec 8).toNat)
  | .ldi d _ _ => some ("LDI " ++ registerName d ++ ", " ++ toString imm.toNat)
  | .add d s1 s2 => some (threeRegisters "ADD" d s1 s2)
  | .sub d s1 s2 => some (threeRegisters "SUB" d s1 s2)
  | .mult d s1 s2 => some (threeRegisters "MULT" d s1 s2)
  | .div d s1 s2 => some (threeRegisters "DIV" d s1 s2)
  | .nop _ _ => some "NOP"
  | .halt _ _ => some "HALT"
  | .jmp r _ => some (oneRegister "JMP" r)
  | .jz r _ => some (oneRegister "JZ" r)
  | .jnz r _ => some (oneRegister "JNZ" r)
  | .jc r _ => some (oneRegister "JC" r)
  | .jnc r _ => some (oneRegister "JNC" r)
  | .js r _ => some (oneRegister "JS" r)
  | .jns r _ => some (oneRegister "JNS" r)
  | .jo r _ => some (oneRegister "JO" r)
  | .jno r _ => some (oneRegister "JNO" r)
  | .jlt r _ => some (oneRegister "JLT" r)
  | .jgt r _ => some (oneRegister "JGT" r)
  | .ld d s => some ("LD " ++ registerName d ++ ", [" ++ registerName s ++ "]")
  | .st d s => some ("ST [" ++ registerName d ++ "], " ++ registerName s)
  | .unknownExtF _ _ | .unknownBase7 _ _ _ | .unknownBase8ToF _ _ _ _ => none

/-- The bytes an assembler emits: the canonical encoding, every ignored field 0 (R59, R62). -/
def assembledBytes (i : Instr) (imm : Word) : List Byte := instrBytes i.canonical imm

end Sys2Proof.Machine
end

