-- ==== Sys2Proof/Tests/Slice0.lean ====
section
/-! SUPPORT. Small tests. Expected results come from the vectors V1 to V9 of 95_test_vectors.md or are worked by hand from
the rule named; then the witnesses that the hypotheses of every statement can be met. -/

namespace Sys2Proof.Tests

open Sys2Proof.Machine Sys2Proof.Safety

/-! ### Well-formedness: the one check there is -/

theorem test_wellFormed_refuses_low_opcode : (Instr.unknownBase8ToF 7 1 2 3).wellFormed = false := by decide
theorem test_wellFormed_accepts_lowest_opcode : (Instr.unknownBase8ToF 8 0 0 0).wellFormed = true := by decide

/-! ### Decoding, from the words of V1 and of the examples of each rule -/

theorem test_decode_mov : decodeWord 0x1FFF = .mov 15 15 15 := by decide
theorem test_decode_ldi : decodeWord 0x2200 = .ldi 2 0 0 := by decide
theorem test_decode_add : decodeWord 0x3312 = .add 3 1 2 := by decide
theorem test_decode_sub : decodeWord 0x4001 = .sub 0 0 1 := by decide
theorem test_decode_mult : decodeWord 0x5312 = .mult 3 1 2 := by decide
theorem test_decode_div : decodeWord 0x6102 = .div 1 0 2 := by decide
theorem test_decode_nop : decodeWord 0x00FF = .nop 15 15 := by decide
theorem test_decode_halt : decodeWord 0x0110 = .halt 1 0 := by decide
theorem test_decode_jmp : decodeWord 0x0240 = .jmp 4 0 := by decide
theorem test_decode_jz : decodeWord 0x0330 = .jz 3 0 := by decide
theorem test_decode_jnz : decodeWord 0x0430 = .jnz 3 0 := by decide
theorem test_decode_jc : decodeWord 0x0530 = .jc 3 0 := by decide
theorem test_decode_jnc : decodeWord 0x0630 = .jnc 3 0 := by decide
theorem test_decode_js : decodeWord 0x0730 = .js 3 0 := by decide
theorem test_decode_jns : decodeWord 0x0830 = .jns 3 0 := by decide
theorem test_decode_jo : decodeWord 0x0930 = .jo 3 0 := by decide
theorem test_decode_jno : decodeWord 0x0A30 = .jno 3 0 := by decide
theorem test_decode_jlt : decodeWord 0x0B30 = .jlt 3 0 := by decide
theorem test_decode_jgt : decodeWord 0x0C30 = .jgt 3 0 := by decide
theorem test_decode_ld : decodeWord 0x0D21 = .ld 2 1 := by decide
theorem test_decode_st : decodeWord 0x0E10 = .st 1 0 := by decide
theorem test_decode_unknownExtF : decodeWord 0x0F12 = .unknownExtF 1 2 := by decide
theorem test_decode_unknownBase7 : decodeWord 0x7123 = .unknownBase7 1 2 3 := by decide
theorem test_decode_unknownBase8ToF : decodeWord 0xFFFF = .unknownBase8ToF 15 15 15 15 := by decide
theorem test_decode_truncated : decodeBytes [0x31] = .error .truncatedWord := by decide
/-- The first word of a table number is stored high byte first, and the words above it stand after it (R36). -/
theorem test_tableBytes : tableBytes 16 0x5312 = [0x53, 0x12, 0, 0, 0, 0] := by decide
/-- The bytes of `LDI R2, 0xDEADBEEF` (R71). -/
theorem test_instrBytes_ldi : instrBytes (.ldi 2 0 0) 0xDEADBEEF = [0x22, 0x00, 0xDE, 0xAD, 0xBE, 0xEF] := by decide

/-! ### One step on a small state -/

/-- A running machine: bytes at `pc`, some registers, the flags. -/
def running (pc : Word) (f : Flags) (regs : List (Nibble × Word)) (bytes : List Byte) : State :=
  regs.foldl (fun s p => writeReg s p.1 p.2)
    { State.reset with pc := pc, flags := f, running := true, mem := Memory.place [] pc.toNat bytes }

/-- The state after one step. -/
def after (s : State) : Option State :=
  match step s with
  | .next t => some t
  | .fault _ => none
  | .refused _ => none

def noFlags : Flags := ⟨false, false, false, false⟩
def allFlags : Flags := ⟨true, true, true, true⟩

/-- V2: `MOV R1, 0x2A`, upper bits cleared, flags kept. -/
theorem test_mov : (after (running 0 allFlags [(1, 0xDEADBEEF)] [0x11, 0x2A])).map
    (fun t => (readReg t 1, t.pc, t.flags)) = some (0x2A, 2, allFlags) := by decide
/-- V2: `MOV R0, 0x00` does not set Zero. -/
theorem test_mov_zero : (after (running 0 noFlags [(0, 0xFFFFFFFF)] [0x10, 0x00])).map
    (fun t => (readReg t 0, t.flags)) = some (0, noFlags) := by decide
/-- V2: `LDI R1` at 0xFFFA, the last place it completes. -/
theorem test_ldi_last : (after (running 0xFFFA noFlags [] [0x21, 0x00, 1, 2, 3, 4])).map
    (fun t => (readReg t 1, t.pc)) = some (0x01020304, 0x10000) := by decide
/-- V2 with the ignored fields set: `LDI R1` at 0xFFFC has no room; the latched word is its own. -/
theorem test_ldi_no_room : (after (running 0xFFFC noFlags [] [0x21, 0xC7, 1, 2])).map
    (fun t => (readReg t 1, t.pc, t.running, t.fault)) =
      some (0, 0xFFFE, false, some ⟨.insufficientImmediateSpace, some 0x21C7, 0xFFFE⟩) := by decide
/-- V3: carry out. -/
theorem test_add_carry : (after (running 0 allFlags [(1, 0xFFFFFFFF), (2, 1), (3, 9)] [0x33, 0x12])).map
    (fun t => (readReg t 3, t.flags)) = some (0, ⟨true, true, false, false⟩) := by decide
/-- V3: aliasing, signed overflow. -/
theorem test_add_alias : (after (running 0 noFlags [(1, 0x40000000)] [0x31, 0x11])).map
    (fun t => (readReg t 1, t.flags)) = some (0x80000000, ⟨false, false, true, true⟩) := by decide
/-- V4: 3 - 5, Overflow by the formula as written (decision D6). -/
theorem test_sub_borrow : (after (running 0 noFlags [(1, 3), (2, 5)] [0x43, 0x12])).map
    (fun t => (readReg t 3, t.flags)) = some (0xFFFFFFFE, ⟨true, false, true, true⟩) := by decide
/-- V4: `0x80000000 - 1`, no Overflow by that formula. -/
theorem test_sub_min : (after (running 0 allFlags [(1, 0x80000000), (2, 1)] [0x43, 0x12])).map
    (fun t => (readReg t 3, t.flags)) = some (0x7FFFFFFF, noFlags) := by decide
/-- V5: the high half is lost and no flag reports it. -/
theorem test_mult_high_lost : (after (running 0 allFlags [(1, 0x10000), (2, 0x10000)] [0x53, 0x12])).map
    (fun t => (readReg t 3, t.flags)) = some (0, ⟨false, true, false, false⟩) := by decide
/-- V5: a product with bit 31 set. -/
theorem test_mult_sign : (after (running 0 noFlags [(1, 0xFFFFFFFF), (2, 2)] [0x53, 0x12])).map
    (fun t => (readReg t 3, t.flags)) = some (0xFFFFFFFE, ⟨false, false, true, false⟩) := by decide
/-- V6: unsigned division. -/
theorem test_div_unsigned : (after (running 0 allFlags [(1, 0x80000000), (2, 0xFFFFFFFF)] [0x63, 0x12])).map
    (fun t => (readReg t 3, t.flags)) = some (0, ⟨false, true, false, false⟩) := by decide
/-- V6: division by zero leaves the register and the flags. -/
theorem test_div_by_zero : (after (running 0 ⟨true, false, true, false⟩ [(1, 5), (3, 0xCAFEF00D)] [0x63, 0x12])).map
    (fun t => (readReg t 3, t.flags, t.fault)) =
      some (0xCAFEF00D, ⟨true, false, true, false⟩, some ⟨.divideByZero, some 0x6312, 2⟩) := by decide
/-- V9: a NOP at the last fetchable address. -/
theorem test_nop_at_end : (after (running 0xFFFE noFlags [] [0x00, 0x00])).map
    (fun t => (t.pc, t.running, t.fault)) = some (0x10000, true, none) := by decide
/-- R101: HALT at 2. -/
theorem test_halt : (after (running 2 allFlags [] [0x01, 0x00])).map
    (fun t => (t.pc, t.running, t.fault, t.flags)) = some (4, false, none, allFlags) := by decide

/-- `pc` after the jump of V7 with selector byte `op`, target 0x400 in register 3, fetched at 0x10. -/
def jumpPc (op : Byte) (f : Flags) : Option Word :=
  (after (running 0x10 f [(3, 0x400)] [op, 0x30])).map State.pc

theorem test_jmp : jumpPc 0x02 noFlags = some 0x400 := by decide
theorem test_jz : jumpPc 0x03 ⟨false, true, false, false⟩ = some 0x400 ∧ jumpPc 0x03 noFlags = some 0x12 := by decide
theorem test_jnz : jumpPc 0x04 ⟨false, true, false, false⟩ = some 0x12 ∧ jumpPc 0x04 noFlags = some 0x400 := by decide
theorem test_jc : jumpPc 0x05 ⟨true, false, true, true⟩ = some 0x400 ∧ jumpPc 0x05 noFlags = some 0x12 := by decide
theorem test_jnc : jumpPc 0x06 ⟨true, false, true, true⟩ = some 0x12 ∧ jumpPc 0x06 noFlags = some 0x400 := by decide
theorem test_js : jumpPc 0x07 ⟨false, false, true, false⟩ = some 0x400 ∧ jumpPc 0x07 noFlags = some 0x12 := by decide
theorem test_jns : jumpPc 0x08 ⟨false, false, true, false⟩ = some 0x12 ∧ jumpPc 0x08 noFlags = some 0x400 := by decide
theorem test_jo : jumpPc 0x09 ⟨false, true, false, true⟩ = some 0x400 ∧ jumpPc 0x09 noFlags = some 0x12 := by decide
theorem test_jno : jumpPc 0x0A ⟨false, true, false, true⟩ = some 0x12 ∧ jumpPc 0x0A noFlags = some 0x400 := by decide
theorem test_jlt : jumpPc 0x0B ⟨false, true, false, true⟩ = some 0x400 ∧ jumpPc 0x0B allFlags = some 0x12 := by decide
theorem test_jgt : jumpPc 0x0C ⟨true, false, true, true⟩ = some 0x400 ∧
    jumpPc 0x0C ⟨false, true, false, false⟩ = some 0x12 := by decide

/-- V8: `LD R1, [R1]`, flags kept. -/
theorem test_ld_alias : (after (setMem (running 0 allFlags [(1, 0x40)] [0x0D, 0x11])
      (Memory.place [] 0 [0x0D, 0x11] |>.place 0x40 [0xAB, 0xCD]))).map
    (fun t => (readReg t 1, t.flags)) = some (0xABCD, allFlags) := by decide
/-- V8: LD at 0xFFFFFFFF faults, no wrap to address 0. -/
theorem test_ld_no_wrap : (after (running 0 noFlags [(1, 0xFFFFFFFF), (2, 5)] [0x0D, 0x21])).map
    (fun t => (readReg t 2, t.fault)) = some (5, some ⟨.outOfBoundsAccess, some 0x0D21, 2⟩) := by decide
/-- V8: ST of the low half, high byte first. -/
theorem test_st : (after (running 0 noFlags [(1, 0x40), (0, 0x12345678)] [0x0E, 0x10])).map
    (fun t => (t.mem, t.fault)) = some ([(0, 0x0E), (1, 0x10), (0x40, 0x56), (0x41, 0x78)], none) := by decide
/-- V8: ST at 0xFFFF faults and writes neither byte. -/
theorem test_st_no_partial : (after (running 0 noFlags [(1, 0xFFFF)] [0x0E, 0x10])).map
    (fun t => (t.mem, t.fault)) =
      some ([(0, 0x0E), (1, 0x10)], some ⟨.outOfBoundsAccess, some 0x0E10, 2⟩) := by decide

/-- V9: the illegal words. -/
theorem test_unknownBase7 : (after (running 0 allFlags [] [0x71, 0x23])).map (fun t => (t.fault, t.pc, t.flags)) =
    some (some ⟨.unknownOpcode, some 0x7123, 2⟩, 2, allFlags) := by decide
theorem test_unknownExtF : (after (running 0 noFlags [] [0x0F, 0x12])).map State.fault =
    some (some ⟨.unknownOpcode, some 0x0F12, 2⟩) := by decide
theorem test_unknownBase8ToF : (after (running 0 noFlags [] [0x9A, 0xBC])).map State.fault =
    some (some ⟨.unknownOpcode, some 0x9ABC, 2⟩) := by decide
/-- V9: the fetch fault at 0xFFFF, and at 0xFFFFFFFF (decision D3). -/
theorem test_fetch_fault : (after (running 0xFFFF noFlags [] [])).map (fun t => (t.fault, t.pc)) =
    some (some ⟨.outOfBoundsFetch, none, 0xFFFF⟩, 0xFFFF) := by decide
theorem test_fetch_fault_no_wrap : (after (running 0xFFFFFFFF noFlags [] [])).map State.fault =
    some (some ⟨.outOfBoundsFetch, none, 0xFFFFFFFF⟩) := by decide
/-- V9: a step while not running changes nothing. -/
theorem test_not_running : after State.reset = some State.reset := by decide

/-- R130: the codes of the five kinds. -/
theorem test_fault_codes : [FaultKind.outOfBoundsFetch, .unknownOpcode, .insufficientImmediateSpace, .divideByZero,
    .outOfBoundsAccess].map FaultKind.code = [1, 2, 3, 4, 5] := by decide

/-- R132, R136: the report of an illegal extended word. -/
theorem test_faultReport : faultReport (raise .unknownOpcode (some 0x0F12) State.reset) = some (2, some 0x0F12, 0) ∧
    offendingOpcode 0x0F12 = 15 ∧ offendingOpcode 0x9ABC = 9 := by decide

/-- R138: the conditions after reset, after power-on and with a fault latched. -/
theorem test_runCondition : runCondition State.reset = .offOrStopped ∧ runCondition (powerOn State.reset) = .running ∧
    runCondition (raise .unknownOpcode (some 0x7000) State.reset) = .faulted := by decide
/-- R169: a run called on a machine that is off, or that a step limit has stopped, executes nothing and has not ended well. -/
theorem test_endedWell_not_without_halt :
    (run none 0 State.reset).map (fun d => decide (endedWell d)) = some false ∧
    ((run (some 1) 2 (running 0 noFlags [] [0x00, 0x00])).bind fun d => run none 0 d.engine).map
      (fun d => (d.limitHit, decide (endedWell d))) = some (false, false) := by decide
/-- V9: power-on with a fault latched changes nothing. -/
theorem test_powerOn_faulted : powerOn (raise .unknownOpcode (some 0x7000) State.reset) =
    raise .unknownOpcode (some 0x7000) State.reset := by decide
/-- R62, R59: the text of a jump, and the bytes of a HALT as an assembler emits them. -/
theorem test_assembly : assemblyText (.st 1 10) 0 = some "ST [R1], R10" ∧ assembledBytes (.halt 1 0) 0 = [0x01, 0x00] := by
  decide

/-- The host's placing of an instruction: the very next step runs it. -/
theorem test_withFetchWord : (after (State.reset.withFetchWord 16 0x112A)).map
    (fun t => (readReg t 1, t.pc)) = some (0x2A, 2) := by decide
theorem test_withFetchWord_ldi : (after (State.reset.withFetchWord 48 0x5678123422C7)).map
    (fun t => (readReg t 2, t.pc)) = some (0x12345678, 6) := by decide

/-! ### Witnesses: the hypotheses of every statement can be met -/

/-- A running state that meets the invariant, about to execute the two bytes given. -/
def ready (pc : Word) (regs : List (Nibble × Word)) (hi lo : Byte) : State := running pc noFlags regs [hi, lo]

theorem witness_invariant_running : StateInv (ready 0 [(1, 0xFFFE)] 0x0E 0x10) := by
  have hf : (ready 0 [(1, 0xFFFE)] 0x0E 0x10).fault = none := rfl
  refine ⟨by decide, fun r h => ?_⟩
  rw [hf] at h
  cases h

/-- The state a division by zero leaves: faulted, and it meets the invariant. -/
def faulted : State := { State.reset with pc := 2, fault := some ⟨.divideByZero, some 0x6312, 2⟩ }

theorem witness_invariant_faulted : StateInv faulted := by
  refine ⟨by decide, fun r h => ?_⟩
  cases h
  exact ⟨rfl, rfl, show fieldOpcode 0x6312 = 6 by decide⟩

theorem witness_StepKeepsInvariant : ∃ s t, StateInv s ∧ s.running = true ∧ step s = .next t :=
  ⟨_, _, witness_invariant_running, rfl, rfl⟩
theorem witness_HostActionsKeepInvariant : ∃ (launch : Memory) (s t : State), launch.wf ∧ launch ≠ [] ∧ StateInv s ∧
    loadImage s 0xFFFE [0x12, 0x34] = some t :=
  ⟨[(3, 4)], _, _, by decide, by decide, witness_invariant_running, rfl⟩
theorem witness_StoppedStepChangesNothing : ∃ s : State, s.running = false := ⟨State.reset, rfl⟩
theorem witness_FetchOutsideMemoryFaults : ∃ s : State, s.running = true ∧ Config.memSize ≤ s.pc.toNat + 1 :=
  ⟨ready 0xFFFF [] 0 0, by decide⟩
theorem witness_StepRunsDecodedInstruction : ∃ s : State, s.running = true ∧ s.pc.toNat + 1 < Config.memSize :=
  ⟨ready 0xFFFE [] 0 0, by decide⟩
theorem witness_DecodeOfEncode : ∃ i : Instr, i.wellFormed = true ∧ i = .unknownBase8ToF 8 0 0 0 := ⟨_, by decide, rfl⟩
theorem witness_LengthFromOpcodeField : ∃ i : Instr, i.wellFormed = true ∧ i = .ldi 15 1 2 := ⟨_, by decide, rfl⟩
theorem witness_DecodeFollowsOpcodeTable : ∃ (w : Half) (r : TableRow), r ∈ opcodeTable ∧ r.holds w = true :=
  ⟨0x0EFF, ⟨"ST", 0x0E00, 0xFF00⟩, by simp [opcodeTable, baseRows, extendedRows], by decide⟩
theorem witness_IgnoredFieldsDoNotMatter : ∃ (i : Instr) (s : State), i = .ldi 1 2 3 ∧ i.canonical ≠ i ∧
    ∀ d b c, i = .ldi d b c → s.pc.toNat + 4 ≤ Config.memSize :=
  ⟨.ldi 1 2 3, ready 0xFFFC [] 0 0, rfl, by decide, fun _ _ _ _ => by decide⟩
theorem witness_LdiLoadsImmediate : ∃ s : State, s.pc.toNat + 4 ≤ Config.memSize := ⟨ready 0xFFFC [] 0 0, by decide⟩
theorem witness_LdiWithoutSpaceFaults : ∃ s : State, Config.memSize < s.pc.toNat + 4 := ⟨ready 0xFFFD [] 0 0, by decide⟩
theorem witness_LoadsFrame_mov : ∃ s t, exec (.mov 1 2 3) s = .next t := ⟨State.reset, _, rfl⟩
theorem witness_LoadsFrame_ldi : ∃ s t, exec (.ldi 1 2 3) s = .next t ∧ s.pc.toNat + 4 ≤ Config.memSize :=
  ⟨running 0 noFlags [] [1, 2, 3, 4], _, rfl, by decide⟩
theorem witness_LoadsFrame_ld : ∃ s t, exec (.ld 1 2) s = .next t ∧ (readReg s 2).toNat + 1 < Config.memSize :=
  ⟨running 0 noFlags [] [1, 2], _, rfl, by decide⟩
theorem witness_DivResultAndFlags : ∃ s : State, readReg s 2 ≠ 0 ∧ readReg s 3 = 0 := ⟨ready 0 [(2, 7)] 0 0, by decide⟩
theorem witness_DivideByZeroLatchesRecord : ∃ s : State, readReg s 3 = 0 := ⟨ready 0 [(2, 7)] 0 0, by decide⟩
theorem witness_DivStoresFloorOfQuotient : ∃ s : State, readReg s 1 = 100 ∧ readReg s 2 ≠ 0 :=
  ⟨ready 0 [(1, 100), (2, 7)] 0 0, by decide⟩
theorem witness_FlagsAreOfTheStoredResult : ∃ (i : Instr) (d s1 s2 : Nibble) (s : State),
    (i = .div d s1 s2 ∧ readReg s s2 ≠ 0) ∧ d ≠ s1 ∧ d ≠ s2 :=
  ⟨.div 3 1 2, 3, 1, 2, ready 0 [(1, 100), (2, 7)] 0 0, ⟨rfl, by decide⟩, by decide, by decide⟩
theorem witness_ArithmeticFrame : ∃ s t, readReg s 2 ≠ 0 ∧ exec (.div 3 1 2) s = .next t :=
  ⟨ready 0 [(1, 100), (2, 7)] 0 0, _, by decide, rfl⟩
theorem witness_NopChangesNothing : ∃ s : State, s.running = true ∧ s.pc.toNat + 1 < Config.memSize ∧
    s.mem.read s.pc.toNat = 0 ∧ s.mem.read (s.pc.toNat + 1) = (15#4 ++ 1#4 : Byte) :=
  ⟨ready 0xFFFE [] 0x00 0xF1, by decide⟩
theorem witness_HaltStopsTheEngine : ∃ s : State, s.running = true ∧ s.fault = none := ⟨ready 0 [] 1 0, by decide⟩
theorem witness_JmpGoesToRegister : ∃ s : State, s.running = true ∧ Config.memSize - 1 ≤ (readReg s 4).toNat :=
  ⟨ready 0 [(4, 0xFFFF)] 2 0x40, by decide⟩
theorem witness_ComplementaryJumps : ∃ s : State, readReg s 3 ≠ s.pc ∧ s.flags.zero = true ∧
    s.flags.sign = s.flags.overflow := ⟨running 0 allFlags [(3, 0x40)] [], by decide⟩
theorem witness_ComplementaryJumps_less : ∃ s : State, readReg s 3 ≠ s.pc ∧ s.flags.sign ≠ s.flags.overflow :=
  ⟨running 0 ⟨false, true, true, false⟩ [(3, 0x40)] [], by decide⟩
theorem witness_OddTargetsAreLegal : ∃ s : State, s.running = true ∧ (readReg s 3).toNat % 2 = 1 ∧
    (readReg s 3).toNat + 1 < Config.memSize := ⟨ready 0 [(3, 0xFFFD)] 2 0x30, by decide⟩
theorem witness_ControlFrame : ∃ s t, exec (.jgt 3 0) s = .next t ∧ t ≠ s :=
  ⟨ready 0 [(3, 0x40)] 0 0, _, rfl, by decide⟩
theorem witness_LdLoadsBigEndianHalf : ∃ s : State, (readReg s 1).toNat + 1 < Config.memSize ∧ readReg s 1 = 0xFFFE :=
  ⟨ready 0 [(1, 0xFFFE)] 0 0, by decide⟩
theorem witness_StStoresLowHalf : ∃ s : State, (readReg s 1).toNat + 1 < Config.memSize ∧ readReg s 1 = 0xFFFE :=
  ⟨ready 0 [(1, 0xFFFE)] 0 0, by decide⟩
theorem witness_AccessOutsideMemoryFaults : ∃ s : State, Config.memSize ≤ (readReg s 1).toNat + 1 :=
  ⟨ready 0 [(1, 0xFFFF)] 0 0, by decide⟩
theorem witness_StFrame : ∃ s t, exec (.st 1 0) s = .next t ∧ canAccess (effectiveAddress s 1) :=
  ⟨ready 0 [(1, 0xFFFE)] 0 0, _, rfl, by decide⟩
theorem witness_StFrame_out_of_range : ∃ s t, exec (.st 1 0) s = .next t ∧ ¬ canAccess (effectiveAddress s 1) :=
  ⟨ready 0 [(1, 0xFFFF)] 0 0, _, rfl, by decide⟩
theorem witness_StoreThenLoadRoundTrip : ∃ s : State, (readReg s 1).toNat + 1 < Config.memSize ∧
    readReg s 2 = readReg s 1 := ⟨ready 0 [(1, 0xFFFE), (2, 0xFFFE)] 0 0, by decide⟩
theorem witness_StoreIsSeenByNextFetch : ∃ s : State, s.running = true ∧ (readReg s 1).toNat + 1 < Config.memSize ∧
    s.pc = readReg s 1 := ⟨ready 0x0C [(1, 0x0C)] 0 0, by decide⟩
theorem witness_StepWritesOnlyTheDestination : ∃ s t, step s = .next t ∧
    destination (decodeWord (fetchWord s)) ≠ some 5 ∧ t ≠ s := ⟨ready 0 [] 0x11 0x2A, _, rfl, by decide, by decide⟩
theorem witness_OnlyArithmeticWritesFlags : ∃ s t, step s = .next t ∧ t.running = false ∧
    isArithmetic (decodeWord (fetchWord s)) = true := ⟨ready 0 [] 0x63 0x12, _, rfl, by decide, by decide⟩
theorem witness_OnlyStWritesMemory : ∃ s t a, step s = .next t ∧ t.mem.read a ≠ s.mem.read a :=
  ⟨ready 0 [(0, 0x5678)] 0x0E 0x10, _, 0, rfl, by decide⟩
theorem witness_StepPcFollowsTable : ∃ s : State, s.running = true ∧ s.pc.toNat + 1 < Config.memSize ∧
    s.pc.toNat + 6 ≤ Config.memSize := ⟨ready 0xFFFA [] 0x21 0, by decide⟩
theorem witness_FaultsArePrecise : ∃ s t r, s.fault = none ∧ step s = .next t ∧ t.fault = some r :=
  ⟨ready 0 [] 0x63 0x12, _, _, rfl, rfl, rfl⟩
theorem witness_FaultsHaveTheirCauses : ∃ s : State, s.running = true ∧ s.fault = none ∧
    faultCause s = some .outOfBoundsAccess := ⟨ready 0 [(1, 0xFFFF)] 0x0E 0x10, by decide⟩
/-- Every branch of `faultCause`, at its boundary. -/
theorem witness_FaultsHaveTheirCauses_all_kinds :
    faultCause (ready 0xFFFF [] 0 0) = some .outOfBoundsFetch ∧ faultCause (ready 0xFFFE [] 0x0F 0xFF) = some .unknownOpcode ∧
    faultCause (ready 0 [] 0x70 0x00) = some .unknownOpcode ∧
    faultCause (ready 0xFFFB [] 0x21 0) = some .insufficientImmediateSpace ∧ faultCause (ready 0xFFFA [] 0x21 0) = none ∧
    faultCause (ready 0 [] 0x63 0x12) = some .divideByZero ∧ faultCause (ready 0 [(2, 1)] 0x63 0x12) = none ∧
    faultCause (ready 0 [(1, 0xFFFF)] 0x0D 0x21) = some .outOfBoundsAccess ∧
    faultCause (ready 0 [(1, 0xFFFE)] 0x0D 0x21) = none ∧ faultCause (ready 0 [(1, 0xFFFE)] 0x0E 0x10) = none := by decide
theorem witness_FaultedIsTerminal : ∃ s, StateInv s ∧ s.fault ≠ none := ⟨faulted, witness_invariant_faulted, by decide⟩
theorem witness_FaultedIsTerminal_load : faulted.fault ≠ none ∧ ∃ t, loadImage faulted 0xFFFF [1] = some t ∧ t ≠ faulted :=
  ⟨by decide, _, rfl, by decide⟩
theorem witness_RunningIsClearedByHaltOrFault : ∃ s t, step s = .next t ∧ s.running = true ∧ t.running = false :=
  ⟨ready 0 [] 0x01 0x10, _, rfl, by decide, by decide⟩
theorem witness_PowerOnSetsRunning : State.reset.fault = none ∧ faulted.fault ≠ none := by decide
theorem witness_LimitedRunEnds : ∃ s, StateInv s ∧ s.running = true := ⟨_, witness_invariant_running, rfl⟩
theorem witness_RunExecutesTheStepsItReports : ∃ (s : State) (d : DriverState), run (some 1) 2 s = some d ∧ d.limitHit = true :=
  ⟨ready 0 [] 0x11 0x2A, _, rfl, rfl⟩
/-- A run without a limit, ended by HALT: it ended well. -/
theorem witness_RunExecutesTheStepsItReports_halt : ∃ (s : State) (d : DriverState), run none 1 s = some d ∧
    s.running = true ∧ endedWell d := ⟨ready 0 [] 0x01 0x10, _, rfl, by decide, by decide⟩
/-- A run ended by a fault ended badly. -/
theorem witness_RunExecutesTheStepsItReports_fault : ∃ (s : State) (d : DriverState), run none 1 s = some d ∧
    s.running = true ∧ endedBadly d ∧ ¬ endedWell d := ⟨ready 0 [] 0x63 0x12, _, rfl, by decide, by decide, by decide⟩
theorem witness_RunWithNothingToDo : State.reset.running = false ∧ (ready 0 [] 0 0).running = true := by decide
theorem witness_MemoryLoadPlacesBytes : (0xFFFE + [1#8, 2#8].length ≤ Config.memSize) ∧
    (Config.memSize < 0xFFFF + [1#8, 2#8].length) := by decide

end Sys2Proof.Tests
end

section
/-! The state family: what an instruction and a step change and what they leave unchanged (10_state.md). First the rules of
the instructions that check something, of the arithmetic group and of the jumps; then what every `Effect` keeps; then the
statements. -/

namespace Sys2Proof.Machine

open Sys2Proof.Safety

/-! ### The two outcomes of each instruction that checks something -/

theorem exec_ldi_of_fits (d b c : Nibble) {s : State} (h : ldiFits s) :
    exec (.ldi d b c) s = .next (advancePc (writeReg s d (ldiImmediate s)) 4) := if_pos h

theorem exec_ldi_of_not_fits (d b c : Nibble) {s : State} (h : ¬ ldiFits s) :
    exec (.ldi d b c) s = raiseIn .insufficientImmediateSpace (.ldi d b c) s := if_neg h

theorem exec_div_of_ne_zero (d s1 s2 : Nibble) {s : State} (h : readReg s s2 ≠ 0) :
    exec (.div d s1 s2) s = .next (storeArithmetic s d (divResult (readReg s s1) (readReg s s2))
      (divFlags (readReg s s1) (readReg s s2))) := if_neg h

theorem exec_div_of_eq_zero (d s1 s2 : Nibble) {s : State} (h : readReg s s2 = 0) :
    exec (.div d s1 s2) s = raiseIn .divideByZero (.div d s1 s2) s := if_pos h

theorem exec_ld_of_canAccess (d r : Nibble) {s : State} (h : canAccess (effectiveAddress s r)) :
    exec (.ld d r) s = .next (writeReg s d (loadDatum s (effectiveAddress s r))) := if_pos h

theorem exec_ld_of_not_canAccess (d r : Nibble) {s : State} (h : ¬ canAccess (effectiveAddress s r)) :
    exec (.ld d r) s = raiseIn .outOfBoundsAccess (.ld d r) s := if_neg h

theorem exec_st_of_canAccess (d r : Nibble) {s : State} (h : canAccess (effectiveAddress s d)) :
    exec (.st d r) s = .next (setMem s (s.mem.write16 (effectiveAddress s d) (storeDatum s r))) := if_pos h

theorem exec_st_of_not_canAccess (d r : Nibble) {s : State} (h : ¬ canAccess (effectiveAddress s d)) :
    exec (.st d r) s = raiseIn .outOfBoundsAccess (.st d r) s := if_neg h

/-! ### The arithmetic group -/

@[simp] theorem storeArithmetic_pc (s : State) (d : Nibble) (r : Word) (f : Flags) :
    (storeArithmetic s d r f).pc = s.pc := rfl
@[simp] theorem storeArithmetic_flags (s : State) (d : Nibble) (r : Word) (f : Flags) :
    (storeArithmetic s d r f).flags = f := rfl
@[simp] theorem storeArithmetic_running (s : State) (d : Nibble) (r : Word) (f : Flags) :
    (storeArithmetic s d r f).running = s.running := rfl
@[simp] theorem storeArithmetic_fault (s : State) (d : Nibble) (r : Word) (f : Flags) :
    (storeArithmetic s d r f).fault = s.fault := rfl
@[simp] theorem storeArithmetic_mem (s : State) (d : Nibble) (r : Word) (f : Flags) :
    (storeArithmetic s d r f).mem = s.mem := rfl
@[simp] theorem readReg_storeArithmetic (s : State) (d : Nibble) (r : Word) (f : Flags) (j : Nibble) :
    readReg (storeArithmetic s d r f) j = readReg (writeReg s d r) j := rfl

/-- The four arithmetic operations, so that what they share is proved once (41_base_arithmetic.md R80 to R86). -/
inductive AluOp where
  | add
  | sub
  | mult
  | div

/-- The instruction of the operation. -/
def AluOp.instr : AluOp → Nibble → Nibble → Nibble → Instr
  | .add => .add
  | .sub => .sub
  | .mult => .mult
  | .div => .div

/-- The result the operation stores, from the two operands. -/
def AluOp.result : AluOp → Word → Word → Word
  | .add => addResult
  | .sub => subResult
  | .mult => multResult
  | .div => divResult

/-- The flags the operation writes, from the two operands. -/
def AluOp.flags : AluOp → Word → Word → Flags
  | .add => addFlags
  | .sub => subFlags
  | .mult => multFlags
  | .div => divFlags

/-- The operation completes in `s`: it is no division by 0 (R85). -/
def AluOp.completes (op : AluOp) (s2 : Nibble) (s : State) : Prop := op = .div → readReg s s2 ≠ 0

/-- An arithmetic instruction that completes stores its result and writes its flags, both functions of the two sources
alone (R81, R86). -/
theorem AluOp.exec_instr (op : AluOp) (d s1 s2 : Nibble) {s : State} (h : op.completes s2 s) :
    exec (op.instr d s1 s2) s = .next (storeArithmetic s d (op.result (readReg s s1) (readReg s s2))
      (op.flags (readReg s s1) (readReg s s2))) := by
  cases op with
  | add => rfl
  | sub => rfl
  | mult => rfl
  | div => exact exec_div_of_ne_zero d s1 s2 (h rfl)

theorem AluOp.flags_zero (op : AluOp) (a b : Word) : (op.flags a b).zero = zeroFlag (op.result a b) := by
  cases op <;> rfl

theorem AluOp.flags_sign (op : AluOp) (a b : Word) : (op.flags a b).sign = signFlag (op.result a b) := by
  cases op <;> rfl

/-- The instructions the arithmetic statements speak of are those of `AluOp` that complete. -/
theorem exists_aluOp {i : Instr} {d s1 s2 : Nibble} {s : State}
    (h : i = .add d s1 s2 ∨ i = .sub d s1 s2 ∨ i = .mult d s1 s2 ∨ (i = .div d s1 s2 ∧ readReg s s2 ≠ 0)) :
    ∃ op : AluOp, i = op.instr d s1 s2 ∧ op.completes s2 s := by
  obtain rfl | rfl | rfl | ⟨rfl, hne⟩ := h
  · exact ⟨.add, rfl, nofun⟩
  · exact ⟨.sub, rfl, nofun⟩
  · exact ⟨.mult, rfl, nofun⟩
  · exact ⟨.div, rfl, fun _ => hne⟩

/-! ### The jumps -/

/-- The eleven jumps, each with the condition on the flags under which it is taken and the register it goes to
(42_ext_control.md R102 to R112). -/
inductive Jump : Instr → (Flags → Bool) → Nibble → Prop where
  | jmp (r c : Nibble) : Jump (.jmp r c) (fun _ => true) r
  | jz (r c : Nibble) : Jump (.jz r c) condZ r
  | jnz (r c : Nibble) : Jump (.jnz r c) condNZ r
  | jc (r c : Nibble) : Jump (.jc r c) condC r
  | jnc (r c : Nibble) : Jump (.jnc r c) condNC r
  | js (r c : Nibble) : Jump (.js r c) condS r
  | jns (r c : Nibble) : Jump (.jns r c) condNS r
  | jo (r c : Nibble) : Jump (.jo r c) condO r
  | jno (r c : Nibble) : Jump (.jno r c) condNO r
  | jlt (r c : Nibble) : Jump (.jlt r c) condLT r
  | jgt (r c : Nibble) : Jump (.jgt r c) condGT r

theorem jumpIf_eq_setPc (cond : Bool) (r : Nibble) (s : State) :
    jumpIf cond r s = setPc s (if cond then readReg s r else s.pc) := by
  obtain ⟨rfl, h⟩ | ⟨rfl, h⟩ := jumpIf_cases cond r s <;> rw [h] <;> rfl

/-- A jump writes `pc` and nothing else, whether it is taken or not (R113). -/
theorem Jump.exec_eq {i : Instr} {cond : Flags → Bool} {r : Nibble} (h : Jump i cond r) (s : State) :
    exec i s = .next (setPc s (if cond s.flags then readReg s r else s.pc)) := by
  cases h with
  | jmp c => rfl
  | _ => exact congrArg Host.Outcome.next (jumpIf_eq_setPc _ r s)

theorem Jump.pcAfter_eq {i : Instr} {cond : Flags → Bool} {r : Nibble} (h : Jump i cond r) (s : State) :
    pcAfter i s = if cond s.flags then readReg s r else s.pc + 2 := by
  cases h <;> rfl

/-- What NOP, HALT and the jumps can do: nothing, clear `running`, write `pc`. -/
theorem exec_control_cases {i : Instr} {x y : Nibble} {s t : State}
    (hi : i ∈ [Instr.nop x y, .halt x y, .jmp x y, .jz x y, .jnz x y, .jc x y, .jnc x y, .js x y, .jns x y, .jo x y,
      .jno x y, .jlt x y, .jgt x y]) (h : exec i s = .next t) :
    (i = .nop x y ∧ t = s) ∨ (i = .halt x y ∧ t = setRunning s false) ∨
      ∃ cond, Jump i cond x ∧ ∃ target, t = setPc s target := by
  have of_jump : ∀ {cond}, Jump i cond x → ∃ cond, Jump i cond x ∧ ∃ target, t = setPc s target := by
    intro cond hj
    rw [hj.exec_eq] at h
    cases h
    exact ⟨_, hj, _, rfl⟩
  simp only [List.mem_cons, List.not_mem_nil, or_false] at hi
  obtain rfl | rfl | rfl | rfl | rfl | rfl | rfl | rfl | rfl | rfl | rfl | rfl | rfl := hi
  · cases h; exact .inl ⟨rfl, rfl⟩
  · cases h; exact .inr (.inl ⟨rfl, rfl⟩)
  · exact .inr (.inr (of_jump (.jmp x y)))
  · exact .inr (.inr (of_jump (.jz x y)))
  · exact .inr (.inr (of_jump (.jnz x y)))
  · exact .inr (.inr (of_jump (.jc x y)))
  · exact .inr (.inr (of_jump (.jnc x y)))
  · exact .inr (.inr (of_jump (.js x y)))
  · exact .inr (.inr (of_jump (.jns x y)))
  · exact .inr (.inr (of_jump (.jo x y)))
  · exact .inr (.inr (of_jump (.jno x y)))
  · exact .inr (.inr (of_jump (.jlt x y)))
  · exact .inr (.inr (of_jump (.jgt x y)))

/-! ### What every effect keeps -/

/-- Only the destination is written (10_state.md R12). -/
theorem Effect.readReg_eq {s t : State} {i : Instr} {j : Nibble} (h : Effect s i t) (hj : destination i ≠ some j) :
    readReg t j = readReg s j := by
  cases h with
  | fault | nothing | jump | halt | store => rfl
  | move _ d v hd => exact readReg_writeReg_other s v (by rintro rfl; exact hj hd)
  | immediate d b c => exact readReg_writeReg_other s _ (by rintro rfl; exact hj rfl)
  | arithmetic _ d v f hd => exact readReg_writeReg_other s v (by rintro rfl; exact hj hd)

/-- The flags change only where an arithmetic instruction completes, and then `running` does not (R19). -/
theorem Effect.flags_cases {s t : State} {i : Instr} (h : Effect s i t) :
    t.flags = s.flags ∨ (isArithmetic i = true ∧ t.running = s.running) := by
  cases h with
  | fault | move | immediate | nothing | jump | halt | store => exact .inl rfl
  | arithmetic _ d v f hd ha => exact .inr ⟨ha, rfl⟩

/-- `running` is kept, or cleared by HALT or with a fault latched (R21; 60_exceptions.md R138). -/
theorem Effect.running_cases {s t : State} {i : Instr} (h : Effect s i t) :
    t.running = s.running ∨ (t.running = false ∧ ((∃ b c, i = .halt b c) ∨ t.fault ≠ none)) := by
  cases h with
  | fault => exact .inr ⟨rfl, .inr nofun⟩
  | halt b c => exact .inr ⟨rfl, .inl ⟨b, c, rfl⟩⟩
  | move | immediate | arithmetic | nothing | jump | store => exact .inl rfl

/-! ### `pc` after a step -/

/-- Room for LDI's immediate at the advanced `pc` is room for six bytes at its address (40_base_data_movement.md R71). -/
theorem ldiFits_afterFetch {s : State} (hf : canFetch s) :
    ldiFits (afterFetch s) ↔ s.pc.toNat + 6 ≤ Config.memSize := by
  have hsize : Config.memSize = 65536 := rfl
  have hpc : (s.pc + 2).toNat = s.pc.toNat + 2 := BitVec.toNat_add_of_lt (by simp; omega)
  simp only [ldiFits, inMemory, afterFetch_pc, hpc]

/-- The instruction fetched at `s` leaves `pc` where the table of R16 says. -/
theorem exec_afterFetch_pc {s : State} (hf : canFetch s) (i : Instr) :
    ∃ t, exec i (afterFetch s) = .next t ∧ t.pc = pcAfter i s := by
  have of_jump : ∀ {i cond r}, Jump i cond r → ∃ t, exec i (afterFetch s) = .next t ∧ t.pc = pcAfter i s :=
    fun hj => ⟨_, hj.exec_eq _, (hj.pcAfter_eq s).symm⟩
  cases i with
  | ldi d b c =>
    have hfits := ldiFits_afterFetch hf
    by_cases h : ldiFits (afterFetch s)
    · refine ⟨_, exec_ldi_of_fits d b c h, ?_⟩
      simp [pcAfter, hfits.1 h, BitVec.add_assoc]
    · refine ⟨_, exec_ldi_of_not_fits d b c h, ?_⟩
      simp [pcAfter, mt hfits.2 h]
  | div d s1 s2 =>
    by_cases h : readReg (afterFetch s) s2 = 0
    · exact ⟨_, exec_div_of_eq_zero d s1 s2 h, rfl⟩
    · exact ⟨_, exec_div_of_ne_zero d s1 s2 h, rfl⟩
  | ld d r =>
    by_cases h : canAccess (effectiveAddress (afterFetch s) r)
    · exact ⟨_, exec_ld_of_canAccess d r h, rfl⟩
    · exact ⟨_, exec_ld_of_not_canAccess d r h, rfl⟩
  | st d r =>
    by_cases h : canAccess (effectiveAddress (afterFetch s) d)
    · exact ⟨_, exec_st_of_canAccess d r h, rfl⟩
    · exact ⟨_, exec_st_of_not_canAccess d r h, rfl⟩
  | jmp r c => exact of_jump (.jmp r c)
  | jz r c => exact of_jump (.jz r c)
  | jnz r c => exact of_jump (.jnz r c)
  | jc r c => exact of_jump (.jc r c)
  | jnc r c => exact of_jump (.jnc r c)
  | js r c => exact of_jump (.js r c)
  | jns r c => exact of_jump (.jns r c)
  | jo r c => exact of_jump (.jo r c)
  | jno r c => exact of_jump (.jno r c)
  | jlt r c => exact of_jump (.jlt r c)
  | jgt r c => exact of_jump (.jgt r c)
  | mov | add | sub | mult | nop | halt | unknownExtF | unknownBase7 | unknownBase8ToF => exact ⟨_, rfl, rfl⟩

/-! ### The statements of the family -/

/-- Settles O32: result and flags are functions of the sources, with Zero and Sign taken from the result. -/
theorem flagsAreOfTheStoredResult : Obligations.FlagsAreOfTheStoredResult := by
  intro i d s1 s2 s hi
  obtain ⟨op, rfl, hc⟩ := exists_aluOp hi
  refine ⟨_, op.exec_instr d s1 s2 hc, ?_, ?_, fun f => ?_, fun h1 h2 v => ?_⟩
  · simp [op.flags_zero, zeroFlag_eq]
  · simp [op.flags_sign, signFlag]
  · exact ⟨_, op.exec_instr d s1 s2 (s := setFlags s f) hc, rfl⟩
  · have hs1 := readReg_writeReg_other s v h1.symm
    have hs2 := readReg_writeReg_other s v h2.symm
    refine ⟨_, op.exec_instr d s1 s2 (s := writeReg s d v) fun hdiv => hs2 ▸ hc hdiv, ?_⟩
    simp only [storeArithmetic_flags, hs1, hs2]

/-- Settles O40. -/
theorem controlFrame : Obligations.ControlFrame := by
  intro i x y s t hi h
  obtain ⟨rfl, rfl⟩ | ⟨rfl, rfl⟩ | ⟨cond, hj, target, rfl⟩ := exec_control_cases hi h
  · exact ⟨fun _ => rfl, rfl, rfl, fun _ => rfl, fun _ => rfl, fun _ => rfl⟩
  · exact ⟨fun _ => rfl, rfl, rfl, fun _ => rfl, fun hne => absurd rfl hne, fun _ => rfl⟩
  · refine ⟨fun _ => rfl, rfl, rfl, fun _ => rfl, fun _ => rfl, ?_⟩
    rintro (rfl | rfl) <;> cases hj

/-- Settles O48, from `Effect.readReg_eq`. -/
theorem stepWritesOnlyTheDestination : Obligations.StepWritesOnlyTheDestination := by
  intro s t h j hj
  obtain ⟨-, rfl⟩ | ⟨-, -, rfl⟩ | ⟨-, -, h⟩ := step_cases h
  · rfl
  · rfl
  · exact (exec_effect h).readReg_eq hj

/-- Settles O49, from `Effect.flags_cases`: a step that writes flags leaves the machine running. -/
theorem onlyArithmeticWritesFlags : Obligations.OnlyArithmeticWritesFlags := by
  intro s t h hor
  obtain ⟨-, rfl⟩ | ⟨-, -, rfl⟩ | ⟨hr, -, h⟩ := step_cases h
  · rfl
  · rfl
  · obtain hflags | ⟨ha, hrun⟩ := (exec_effect h).flags_cases
    · exact hflags
    · simp [ha, hrun, hr] at hor

/-- Settles O51, from `exec_afterFetch_pc`; the fetch bound keeps the sums below `2 ^ 32`. -/
theorem stepPcFollowsTable : Obligations.StepPcFollowsTable := by
  intro s hr hf
  have hsize : Config.memSize = 65536 := rfl
  refine ⟨?_, BitVec.toNat_add_of_lt (by simp; omega), fun h6 => BitVec.toNat_add_of_lt (by simp; omega)⟩
  rw [step_fetched hr hf]
  exact exec_afterFetch_pc hf _

/-- Settles O55, from `Effect.running_cases`. -/
theorem runningIsClearedByHaltOrFault : Obligations.RunningIsClearedByHaltOrFault := by
  intro s t h
  obtain ⟨hr, rfl⟩ | ⟨hr, -, rfl⟩ | ⟨hr, -, h⟩ := step_cases h
  · exact ⟨id, fun h1 h2 => absurd (h1.symm.trans h2) nofun⟩
  · exact ⟨fun _ => hr, fun _ _ => .inr nofun⟩
  · refine ⟨fun _ => hr, fun _ hstop => ?_⟩
    obtain hkept | ⟨-, hcause⟩ := (exec_effect h).running_cases
    · simp [hkept, hr] at hstop
    · exact hcause

/-- Settles O1. -/
theorem resetValues : Obligations.ResetValues := fun _ => ⟨readReg_reset, rfl, rfl, rfl, rfl, rfl, rfl⟩

/-- Settles O2. -/
theorem resetMeetsInvariant : Obligations.ResetMeetsInvariant := ⟨Memory.wf_nil, nofun⟩

/-- Settles O21: MOV, LDI and LD write the destination, and LDI moves `pc` besides. -/
theorem loadsFrame : Obligations.LoadsFrame := by
  intro d x y s t h
  obtain ⟨v, target, rfl⟩ : ∃ v target, t = setPc (writeReg s d v) target := by
    obtain h | ⟨h, hfits⟩ | ⟨h, hin⟩ := h
    · cases h
      exact ⟨_, _, rfl⟩
    · rw [exec_ldi_of_fits d x y hfits] at h
      cases h
      exact ⟨_, _, rfl⟩
    · rw [exec_ld_of_canAccess d x hin] at h
      cases h
      exact ⟨_, _, rfl⟩
  exact ⟨fun _ => readReg_writeReg_other s v, rfl, ⟨rfl, rfl⟩, fun _ => rfl⟩

/-- Settles O33. -/
theorem arithmeticFrame : Obligations.ArithmeticFrame := by
  intro i d s1 s2 s t hi h
  obtain ⟨op, rfl, hc⟩ := exists_aluOp hi
  rw [op.exec_instr d s1 s2 hc] at h
  cases h
  exact ⟨fun _ => readReg_writeReg_other s _, rfl, ⟨rfl, rfl⟩, fun _ => rfl⟩

/-- Settles O39: the fetch has no alignment check, so the oddness of the target is not used. -/
theorem oddTargetsAreLegal : Obligations.OddTargetsAreLegal := by
  intro r c s hr _ hin
  exact ⟨_, (Jump.jmp r c).exec_eq s, step_fetched (s := setPc s (readReg s r)) hr hin⟩

/-- Settles O44. -/
theorem stFrame : Obligations.StFrame := by
  intro d r s t h
  by_cases hin : canAccess (effectiveAddress s d)
  · rw [exec_st_of_canAccess d r hin] at h
    cases h
    refine ⟨fun _ => rfl, rfl, rfl, fun _ => ⟨rfl, rfl⟩, ?_⟩
    rintro a (⟨ha, ha'⟩ | hout)
    · simp only [setMem_mem, Memory.read_write16, if_neg ha, if_neg ha']
    · exact absurd hin hout
  · rw [exec_st_of_not_canAccess d r hin] at h
    cases h
    exact ⟨fun _ => rfl, rfl, rfl, fun h => absurd h hin, fun _ _ => rfl⟩

end Sys2Proof.Machine
end

section
/-! The memory family (20_memory.md): what a fetch reads after a store, and what an instruction does to memory. -/

namespace Sys2Proof.Machine

/-- The datum of ST, from the register's value (43_ext_memory.md R121). -/
theorem storeDatum_eq_ofNat (s : State) (r : Nibble) : storeDatum s r = BitVec.ofNat 16 (readReg s r).toNat :=
  (BitVec.ofNat_toNat 16 _).symm

/-- A fetch reads the word written at `pc` (R44). -/
@[simp] theorem fetchWord_setMem_write16_pc (s : State) (v : Half) :
    fetchWord (setMem s (s.mem.write16 s.pc.toNat v)) = v :=
  Memory.read16_write16_same s.mem s.pc.toNat v

/-- A running machine runs the word written at `pc` (R44, R172). -/
theorem step_setMem_write16_pc {s : State} (hr : s.running = true) (hf : canFetch s) (v : Half) :
    step (setMem s (s.mem.write16 s.pc.toNat v)) =
      exec (decodeWord v) (afterFetch (setMem s (s.mem.write16 s.pc.toNat v))) := by
  have hstep := step_fetched (s := setMem s (s.mem.write16 s.pc.toNat v)) hr hf
  rwa [fetchWord_setMem_write16_pc] at hstep

/-- Memory is kept, or it is ST in range and its datum is written (R41; 43_ext_memory.md R121). -/
theorem Effect.mem_cases {s t : State} {i : Instr} (h : Effect s i t) :
    t.mem = s.mem ∨ ∃ d r, i = .st d r ∧ canAccess (effectiveAddress s d) ∧
      t.mem = s.mem.write16 (effectiveAddress s d) (storeDatum s r) := by
  cases h with
  | fault | move | immediate | arithmetic | nothing | jump | halt => exact .inl rfl
  | store d r hin => exact .inr ⟨d, r, rfl, hin, rfl⟩

/-- A byte that a 16-bit write changes is one of the two it names (R34). -/
theorem Memory.eq_or_eq_of_read_write16_ne {m : Memory} {a x : Nat} {v : Half}
    (h : (m.write16 a v).read x ≠ m.read x) : x = a ∨ x = a + 1 := by
  by_contra hx
  obtain ⟨h0, h1⟩ := not_or.1 hx
  exact h (by rw [Memory.read_write16, if_neg h0, if_neg h1])

/-- Settles O46: the fetch after the store reads the stored datum. -/
theorem storeIsSeenByNextFetch : Obligations.StoreIsSeenByNextFetch := by
  intro d r s hr hin hpc
  have haddr : effectiveAddress s d = s.pc.toNat := congrArg BitVec.toNat hpc.symm
  have hf : canFetch s := by simpa only [canFetch, hpc] using hin
  refine ⟨_, exec_st_of_canAccess d r hin, ?_⟩
  rw [haddr, step_setMem_write16_pc hr hf, storeDatum_eq_ofNat]
  rfl

/-- Settles O50, from `Effect.mem_cases`. -/
theorem onlyStWritesMemory : Obligations.OnlyStWritesMemory := by
  intro s t a h hne
  obtain ⟨-, rfl⟩ | ⟨-, -, rfl⟩ | ⟨-, -, h⟩ := step_cases h
  · exact absurd rfl hne
  · exact absurd rfl hne
  · obtain hmem | ⟨d, r, hi, hin, hmem⟩ := (exec_effect h).mem_cases
    · exact absurd (by rw [hmem, afterFetch_mem]) hne
    · rw [hmem] at hne
      exact ⟨d, r, hi, hin, Memory.eq_or_eq_of_read_write16_ne hne⟩

/-- Settles O47. -/
theorem memWriteBytes : Obligations.MemWriteBytes := by
  refine ⟨fun m a v => ⟨?_, ?_, fun x h0 h1 => ?_⟩,
    fun m a v => ⟨m.read_write_same a v, fun _ => m.read_write_other v⟩⟩
  · rw [Memory.read_write16, if_pos rfl]
  · rw [Memory.read_write16, if_neg (Nat.succ_ne_self a), if_pos rfl]
  · rw [Memory.read_write16, if_neg h0, if_neg h1]

end Sys2Proof.Machine
end

section
/-! The encoding family (30_encoding.md): decoder and encoder are inverse, every word has one row of the opcode table and its
length from its opcode field; then the step that fetches, decodes and executes. -/

namespace Sys2Proof

open Sys2Proof.Safety

/-! ### The round trips -/

/-- The high opcodes are those of the decoder's last arm (R58). -/
theorem decodeFields_of_isHighOpcode {op : Nibble} (a b c : Nibble) (h : isHighOpcode op = true) :
    decodeFields op a b c = .unknownBase8ToF op a b c := by
  unfold decodeFields
  split
  case h_9 => rfl
  all_goals exact absurd h (by decide)

theorem decodeWord_encode {i : Instr} (h : i.wellFormed = true) : decodeWord (encode i) = i := by
  cases i with
  | unknownBase8ToF op a b c => exact (decodeWord_packFields ..).trans (decodeFields_of_isHighOpcode a b c h)
  | _ => exact decodeWord_packFields ..

/-- The second level, at each of the sixteen values of its selector (R57). -/
theorem wellFormed_and_encode_decodeExtended (a b c : Nibble) :
    (decodeExtended a b c).wellFormed = true ∧ encode (decodeExtended a b c) = packFields 0 a b c := by
  induction a using nibble_cases with | h k =>
  fin_cases k
  all_goals exact ⟨rfl, rfl⟩

/-- The first level, at each of the sixteen opcodes (R56, R58). -/
theorem wellFormed_and_encode_decodeFields (op a b c : Nibble) :
    (decodeFields op a b c).wellFormed = true ∧ encode (decodeFields op a b c) = packFields op a b c := by
  induction op using nibble_cases with | h k =>
  fin_cases k
  · exact wellFormed_and_encode_decodeExtended a b c
  all_goals exact ⟨rfl, rfl⟩

@[simp] theorem wellFormed_decodeWord (w : Half) : (decodeWord w).wellFormed = true :=
  (wellFormed_and_encode_decodeFields ..).1

@[simp] theorem encode_decodeWord (w : Half) : encode (decodeWord w) = w :=
  (wellFormed_and_encode_decodeFields ..).2.trans (packFields_fields w)

/-- What holds of every well-formed instruction with its word holds of every word with its instruction. -/
theorem forall_word_of_forall_instr {p : Half → Instr → Prop} (h : ∀ i : Instr, i.wellFormed = true → p (encode i) i)
    (w : Half) : p w (decodeWord w) := by
  simpa using h (decodeWord w) (wellFormed_decodeWord w)

/-! ### The opcode table -/

/-- A mask acts on each field. -/
theorem packFields_and (op a b c op' a' b' c' : Nibble) :
    packFields op a b c &&& packFields op' a' b' c' =
      packFields (op &&& op') (a &&& a') (b &&& b') (c &&& c') := by
  apply half_ext
  intro i _
  simp only [getLsbD_packFields, BitVec.getLsbD_and]
  split_ifs <;> rfl

@[simp] theorem nibble_and_fifteen (x : Nibble) : x &&& 15#4 = x := BitVec.and_allOnes

theorem isHighOpcode_and_eight {op : Nibble} (h : isHighOpcode op = true) : op &&& 8#4 = 8#4 :=
  nibble_cases (p := fun op => isHighOpcode op = true → op &&& 8#4 = 8#4) (by decide) op h

/-- The row of an opcode: its mask keeps the opcode field alone. -/
theorem holds_opcodeRow (m : String) (op a b c : Nibble) :
    (TableRow.mk m (packFields op 0 0 0) 0xF000).holds (packFields op a b c) = true := by
  have hmask : (0xF000 : Half) = packFields 15 0 0 0 := rfl
  simp [TableRow.holds, hmask, packFields_and]

/-- The row of a selector: its mask keeps the opcode field and `field_a`. -/
theorem holds_selectorRow (m : String) (op a b c : Nibble) :
    (TableRow.mk m (packFields op a 0 0) 0xFF00).holds (packFields op a b c) = true := by
  have hmask : (0xFF00 : Half) = packFields 15 15 0 0 := rfl
  simp [TableRow.holds, hmask, packFields_and]

/-- The row of the high opcodes: its mask keeps bit 15 alone. -/
theorem holds_highRow (m : String) {op : Nibble} (a b c : Nibble) (h : isHighOpcode op = true) :
    (TableRow.mk m (packFields 8 0 0 0) 0x8000).holds (packFields op a b c) = true := by
  have hmask : (0x8000 : Half) = packFields 8 0 0 0 := rfl
  simp [TableRow.holds, hmask, packFields_and, isHighOpcode_and_eight h]

/-- The table has a row with the mnemonic of every well-formed instruction, and it holds of the instruction's word. -/
theorem exists_row_of_wellFormed {i : Instr} (h : i.wellFormed = true) :
    ∃ r : TableRow, r.holds (encode i) = true ∧ r.mnemonic = mnemonic i ∧ r ∈ opcodeTable := by
  cases i
  case mov | ldi | add | sub | mult | div | unknownBase7 =>
    exact ⟨_, holds_opcodeRow _ _ _ _ _, rfl, by simp [opcodeTable, baseRows, illegalRows, packFields]⟩
  case unknownBase8ToF op a b c =>
    exact ⟨_, holds_highRow _ a b c h, rfl, by simp [opcodeTable, illegalRows, packFields]⟩
  all_goals
    exact ⟨_, holds_selectorRow _ _ _ _ _, rfl, by simp [opcodeTable, extendedRows, illegalRows, packFields]⟩

/-- Two rows that hold of one word agree on the bits that both masks keep. -/
theorem pattern_and_mask_eq {r r' : TableRow} {w : Half} (h : r.holds w = true) (h' : r'.holds w = true) :
    r.pattern &&& r'.mask = r'.pattern &&& r.mask := by
  rw [TableRow.holds, beq_iff_eq] at h h'
  rw [← h, ← h', BitVec.and_assoc, BitVec.and_assoc, BitVec.and_comm r.mask]

theorem row_eq_of_pattern_and_mask_eq : ∀ r ∈ opcodeTable, ∀ r' ∈ opcodeTable,
    r.pattern &&& r'.mask = r'.pattern &&& r.mask → r = r' := by decide

theorem nodup_mnemonics : (opcodeTable.map TableRow.mnemonic).Nodup := by decide

/-- One row for each word: rows that share a word are equal, and so are rows that share a mnemonic. -/
theorem holds_encode_iff {i : Instr} (hi : i.wellFormed = true) {r : TableRow} (hr : r ∈ opcodeTable) :
    r.holds (encode i) = true ↔ r.mnemonic = mnemonic i := by
  obtain ⟨row, hrow, hname, hmem⟩ := exists_row_of_wellFormed hi
  rw [← hname]
  constructor
  · intro h
    rw [row_eq_of_pattern_and_mask_eq r hr row hmem (pattern_and_mask_eq h hrow)]
  · intro h
    rwa [List.inj_on_of_nodup_map nodup_mnemonics hr hmem h]

/-! ### The illegal words -/

/-- The ranges of R58, by field. -/
theorem illegalWord_packFields {op a b c : Nibble} :
    illegalWord (packFields op a b c) ↔ 7 ≤ op.toNat ∨ (op.toNat = 0 ∧ a.toNat = 15) := by
  have ha := a.isLt
  have hb := b.isLt
  have hc := c.isLt
  rw [illegalWord, toNat_packFields]
  omega

theorem illegalWord_encode_iff {i : Instr} (hi : i.wellFormed = true) :
    illegalWord (encode i) ↔ i.isUnknown = true := by
  cases i
  case unknownBase8ToF op a b c =>
    have hop : 8 ≤ op.toNat := of_decide_eq_true hi
    exact illegalWord_packFields.trans (iff_of_true (.inl (by omega)) rfl)
  all_goals exact illegalWord_packFields.trans (by simp [Instr.isUnknown])

/-! ### The length -/

/-- The length is in the opcode field (R61), from the lemma of each constructor. -/
theorem lengthBytes_eq (i : Instr) : Laws.Length.Statement i := by
  cases i with
  | mov d h l => exact Laws.Length.mov d h l
  | ldi d b c => exact Laws.Length.ldi d b c
  | add d s1 s2 => exact Laws.Length.add d s1 s2
  | sub d s1 s2 => exact Laws.Length.sub d s1 s2
  | mult d s1 s2 => exact Laws.Length.mult d s1 s2
  | div d s1 s2 => exact Laws.Length.div d s1 s2
  | nop b c => exact Laws.Length.nop b c
  | halt b c => exact Laws.Length.halt b c
  | jmp r c => exact Laws.Length.jmp r c
  | jz r c => exact Laws.Length.jz r c
  | jnz r c => exact Laws.Length.jnz r c
  | jc r c => exact Laws.Length.jc r c
  | jnc r c => exact Laws.Length.jnc r c
  | js r c => exact Laws.Length.js r c
  | jns r c => exact Laws.Length.jns r c
  | jo r c => exact Laws.Length.jo r c
  | jno r c => exact Laws.Length.jno r c
  | jlt r c => exact Laws.Length.jlt r c
  | jgt r c => exact Laws.Length.jgt r c
  | ld d s => exact Laws.Length.ld d s
  | st d s => exact Laws.Length.st d s
  | unknownExtF b c => exact Laws.Length.unknownExtF b c
  | unknownBase7 a b c => exact Laws.Length.unknownBase7 a b c
  | unknownBase8ToF op a b c => exact Laws.Length.unknownBase8ToF op a b c

theorem lengthBytes_decodeWord (w : Half) : (decodeWord w).lengthBytes = if fieldOpcode w = 2 then 6 else 2 :=
  forall_word_of_forall_instr (p := fun w i => i.lengthBytes = if fieldOpcode w = 2 then 6 else 2)
    (fun i => lengthBytes_eq i) w

/-- The opcode field as a number (R50). -/
theorem toNat_fieldOpcode (w : Half) : (fieldOpcode w).toNat = w.toNat / 4096 := by
  obtain ⟨op, a, b, c, rfl⟩ := exists_packFields w
  have ha := a.isLt
  have hb := b.isLt
  have hc := c.isLt
  rw [fieldOpcode_packFields, toNat_packFields]
  omega

theorem fieldOpcode_eq_two_iff (w : Half) : fieldOpcode w = 2 ↔ w.toNat / 4096 = 2 := by
  rw [← toNat_fieldOpcode, ← BitVec.toNat_inj]
  rfl

/-- The two bytes of a word make up the word (20_memory.md R36). -/
theorem append_halfBytes (w : Half) : (w.extractLsb' 8 8 ++ w.extractLsb' 0 8 : Half) = w :=
  (BitVec.extractLsb'_append_extractLsb'_eq_extractLsb' (show 8 = 0 + 8 from rfl)).trans BitVec.extractLsb'_eq_self

theorem decodeBytes_halfBytes_append (w : Half) (rest : List Byte) :
    decodeBytes (halfBytes w ++ rest) = .ok (decodeWord w, rest) :=
  congrArg (fun v => Except.ok (decodeWord v, rest)) (append_halfBytes w)

/-- The bytes of an instruction are those of its word and the rest of its length. -/
theorem exists_instrBytes_eq (i : Instr) (imm : Word) :
    ∃ rest, instrBytes i imm = halfBytes (encode i) ++ rest ∧ 2 + rest.length = i.lengthBytes := by
  cases i
  case ldi d b c => exact ⟨_, List.append_assoc .., rfl⟩
  all_goals exact ⟨[], rfl, rfl⟩

/-! ### The statements on words -/

/-- Settles O11. -/
theorem decodeOfEncode : Obligations.DecodeOfEncode := fun _ => decodeWord_encode

/-- Settles O12. -/
theorem encodeOfDecode : Obligations.EncodeOfDecode := fun w => ⟨wellFormed_decodeWord w, encode_decodeWord w⟩

/-- Settles O13: every word is that of a well-formed instruction, which has one row. -/
theorem decodeFollowsOpcodeTable : Obligations.DecodeFollowsOpcodeTable := by
  intro w r hr
  simpa using holds_encode_iff (wellFormed_decodeWord w) hr

/-- Settles O14. -/
theorem illegalWordsAreTheUnknownRows : Obligations.IllegalWordsAreTheUnknownRows :=
  forall_word_of_forall_instr (p := fun w i => illegalWord w ↔ i.isUnknown = true) fun _ => illegalWord_encode_iff

/-- Settles O15. -/
theorem lengthFromOpcodeField : Obligations.LengthFromOpcodeField := by
  refine ⟨fun w => ?_, fun i imm hi => ?_⟩
  · simp only [lengthBytes_decodeWord, fieldOpcode_eq_two_iff]
  · obtain ⟨rest, hbytes, hlen⟩ := exists_instrBytes_eq i imm
    rw [hbytes, decodeBytes_halfBytes_append, decodeWord_encode hi, List.length_append]
    exact ⟨hlen, rfl⟩

/-- Settles O10. -/
theorem sampleWordsDecode : Obligations.SampleWordsDecode := by
  unfold Obligations.SampleWordsDecode
  decide

end Sys2Proof

namespace Sys2Proof.Machine

/-! ### The statements on the step and on `exec` -/

/-- The step of a machine that is not running (R53, decision D13). -/
theorem step_stopped {s : State} (hr : s.running = false) : step s = .next s := by
  simp [step, hr]

/-- The step of a running machine whose word does not lie in memory (R51). -/
theorem step_not_fetched {s : State} (hr : s.running = true) (hf : ¬ canFetch s) : step s = fetchFault s := by
  simp only [step, hr, if_true, if_neg hf]

/-- Settles O6: what is fetched executes to a next state by `exec_afterFetch_pc`. -/
theorem everyStateHasNextState : Obligations.EveryStateHasNextState := by
  intro s
  cases hr : s.running with
  | false => exact ⟨s, step_stopped hr⟩
  | true =>
    by_cases hf : canFetch s
    · obtain ⟨t, ht, -⟩ := exec_afterFetch_pc hf (decodeWord (fetchWord s))
      exact ⟨t, (step_fetched hr hf).trans ht⟩
    · exact ⟨_, step_not_fetched hr hf⟩

/-- Settles O16: the ignored fields reach the latched word of a fault alone, and LDI does not fault here. -/
theorem ignoredFieldsDoNotMatter : Obligations.IgnoredFieldsDoNotMatter := by
  intro i s hfits
  cases i
  case ldi d b c =>
    have h : ldiFits s := hfits d b c rfl
    exact (exec_ldi_of_fits d b c h).trans (exec_ldi_of_fits d 0 0 h).symm
  all_goals rfl

/-- Settles O7. -/
theorem stoppedStepChangesNothing : Obligations.StoppedStepChangesNothing := fun _ => step_stopped

/-- Settles O8. -/
theorem fetchOutsideMemoryFaults : Obligations.FetchOutsideMemoryFaults :=
  fun _ hr hpc => step_not_fetched hr (Nat.not_lt.2 hpc)

/-- Settles O9. -/
theorem stepRunsDecodedInstruction : Obligations.StepRunsDecodedInstruction := fun _ => step_fetched

/-- Settles O17. -/
theorem illegalWordsRaiseUnknownOpcode : Obligations.IllegalWordsRaiseUnknownOpcode :=
  fun _ _ _ _ _ => ⟨rfl, rfl, rfl⟩

end Sys2Proof.Machine
end

section
/-! The data movement family (40_base_data_movement.md): the immediates of MOV and LDI as numbers, then the two
instructions. -/

namespace Sys2Proof.Machine

open Sys2Proof.Safety

/-- The number of two joined vectors: the high one counts in units of the low one's range. -/
theorem toNat_append_eq_mul_add {m n : Nat} (hi : BitVec m) (lo : BitVec n) :
    (hi ++ lo).toNat = hi.toNat * 2 ^ n + lo.toNat := by
  rw [BitVec.toNat_append, ← Nat.shiftLeft_add_eq_or_of_lt lo.isLt, Nat.shiftLeft_eq]

/-- MOV's immediate, from its two fields (30_encoding.md R60). -/
theorem movImmediate_eq_ofNat (h l : Nibble) :
    movImmediate h l = BitVec.ofNat 32 (16 * h.toNat + l.toNat) := by
  rw [movImmediate, ← BitVec.ofNat_toNat, toNat_append_eq_mul_add, Nat.mul_comm]
  rfl

/-- A 32-bit read as a number: four bytes, the first one most significant (20_memory.md R33, R36). -/
theorem Memory.toNat_read32 (m : Memory) (a : Nat) :
    (m.read32 a).toNat = (m.read a).toNat * 2 ^ 24 + (m.read (a + 1)).toNat * 2 ^ 16 +
      (m.read (a + 2)).toNat * 2 ^ 8 + (m.read (a + 3)).toNat := by
  simp only [Memory.read32, Memory.read16, toNat_append_eq_mul_add]
  ring

/-- LDI's immediate, from the four bytes at `pc` (30_encoding.md R60). -/
theorem ldiImmediate_eq_ofNat (s : State) :
    ldiImmediate s = BitVec.ofNat 32 ((s.mem.read s.pc.toNat).toNat * 2 ^ 24 +
      (s.mem.read (s.pc.toNat + 1)).toNat * 2 ^ 16 + (s.mem.read (s.pc.toNat + 2)).toNat * 2 ^ 8 +
      (s.mem.read (s.pc.toNat + 3)).toNat) := by
  rw [← Memory.toNat_read32, BitVec.ofNat_toNat, BitVec.setWidth_eq, ldiImmediate]

/-- Settles O19. -/
theorem ldiLoadsImmediate : Obligations.LdiLoadsImmediate := by
  intro d b c s hfits
  rw [exec_ldi_of_fits d b c hfits, ldiImmediate_eq_ofNat]
  rfl

/-- Settles O18. -/
theorem movLoadsImmediate : Obligations.MovLoadsImmediate := fun d h l s =>
  congrArg (fun v => Host.Outcome.next (writeReg s d v)) (movImmediate_eq_ofNat h l)

/-- Settles O20: the latched word is the encoding of the instruction, its ignored fields included. -/
theorem ldiWithoutSpaceFaults : Obligations.LdiWithoutSpaceFaults :=
  fun d b c _ hpc => exec_ldi_of_not_fits d b c (Nat.not_le.2 hpc)

end Sys2Proof.Machine
end

section
/-! The arithmetic family (41_base_arithmetic.md): when a result is 0, the flags of each operation, the next state of each
instruction in bit vector arithmetic, and what the flags tell about the order of the operands. -/

namespace Sys2Proof.Machine

/-! ### When a result is 0 -/

/-- The stored product is 0 exactly where 2^32 divides the exact one (R84). -/
theorem mul_eq_zero_iff_dvd (a b : Word) : a * b = 0 ↔ 2 ^ 32 ∣ a.toNat * b.toNat := by
  rw [← BitVec.toNat_inj, BitVec.toNat_mul, Nat.dvd_iff_mod_eq_zero]
  rfl

/-- A quotient is 0 exactly where the dividend is below the divisor (R85). -/
theorem div_eq_zero_iff_lt {a b : Word} (hb : b ≠ 0) : a / b = 0 ↔ a.toNat < b.toNat :=
  BitVec.udiv_eq_zero_iff_eq_zero_or_lt.trans (or_iff_right hb)

/-! ### The flags of each operation -/

theorem addFlags_eq (a b : Word) :
    addFlags a b = ⟨decide (2 ^ 32 ≤ a.toNat + b.toNat), decide (a + b = 0), (a + b).msb,
      decide (a.msb = b.msb ∧ (a + b).msb ≠ a.msb)⟩ := by
  rw [addFlags, addWide_testBit, addResult_eq, zeroFlag_eq, signFlag_eq, overflowFlag_eq]

theorem subFlags_eq (a b : Word) :
    subFlags a b = ⟨decide (a.toNat < b.toNat), decide (a = b), (a - b).msb,
      decide (a.msb = b.msb ∧ (a - b).msb ≠ a.msb)⟩ := by
  simp only [subFlags, subResult_eq, zeroFlag_eq, signFlag_eq, overflowFlag_eq, sub_eq_zero]

theorem multFlags_eq (a b : Word) :
    multFlags a b = ⟨false, decide (2 ^ 32 ∣ a.toNat * b.toNat), (a * b).msb, false⟩ := by
  simp only [multFlags, multResult_eq, zeroFlag_eq, signFlag_eq, mul_eq_zero_iff_dvd]

theorem divFlags_eq (a : Word) {b : Word} (hb : b ≠ 0) :
    divFlags a b = ⟨false, decide (a.toNat < b.toNat), (a / b).msb, false⟩ := by
  have hq : decide (2 ^ 32 ≤ divQuotient a b) = false := decide_eq_false (divQuotient_lt a b).not_ge
  simp only [divFlags, divResult_eq, zeroFlag_eq, signFlag_eq, div_eq_zero_iff_lt hb, hq]

/-! ### The next state of each instruction -/

theorem exec_add (d s1 s2 : Nibble) (s : State) :
    exec (.add d s1 s2) s = .next (storeArithmetic s d (readReg s s1 + readReg s s2)
      (addFlags (readReg s s1) (readReg s s2))) := by
  rw [← addResult_eq]
  exact AluOp.add.exec_instr d s1 s2 nofun

theorem exec_sub (d s1 s2 : Nibble) (s : State) :
    exec (.sub d s1 s2) s = .next (storeArithmetic s d (readReg s s1 - readReg s s2)
      (subFlags (readReg s s1) (readReg s s2))) := by
  rw [← subResult_eq]
  exact AluOp.sub.exec_instr d s1 s2 nofun

theorem exec_mult (d s1 s2 : Nibble) (s : State) :
    exec (.mult d s1 s2) s = .next (storeArithmetic s d (readReg s s1 * readReg s s2)
      (multFlags (readReg s s1) (readReg s s2))) := by
  rw [← multResult_eq]
  exact AluOp.mult.exec_instr d s1 s2 nofun

theorem exec_div (d s1 s2 : Nibble) {s : State} (h : readReg s s2 ≠ 0) :
    exec (.div d s1 s2) s = .next (storeArithmetic s d (readReg s s1 / readReg s s2)
      (divFlags (readReg s s1) (readReg s s2))) := by
  rw [← divResult_eq]
  exact exec_div_of_ne_zero d s1 s2 h

@[simp] theorem readReg_storeArithmetic_same (s : State) (d : Nibble) (r : Word) (f : Flags) :
    readReg (storeArithmetic s d r f) d = r := by
  rw [readReg_storeArithmetic, readReg_writeReg_same]

/-! ### The order of the operands, from the flags -/

/-- ADD's Overflow is the library's signed overflow (R80). -/
theorem addFlags_overflow (a b : Word) : (addFlags a b).overflow = a.saddOverflow b := by
  rw [addFlags_eq, BitVec.saddOverflow_eq]
  cases a.msb <;> cases b.msb <;> cases (a + b).msb <;> rfl

theorem addFlags_overflow_iff (a b : Word) :
    (addFlags a b).overflow = true ↔ a.toInt + b.toInt < -2 ^ 31 ∨ 2 ^ 31 ≤ a.toInt + b.toInt := by
  simp only [addFlags_overflow, BitVec.saddOverflow, Bool.or_eq_true, decide_eq_true_eq, or_comm, ge_iff_le]

theorem subFlags_carry_iff (a b : Word) : (subFlags a b).carry = true ↔ a.toNat < b.toNat :=
  decide_eq_true_iff

theorem subFlags_zero_iff (a b : Word) : (subFlags a b).zero = true ↔ a = b := by
  rw [subFlags_eq, decide_eq_true_iff]

/-- No borrow and no zero: the first operand is above the second (R83). -/
theorem subFlags_carry_zero_false_iff (a b : Word) :
    (subFlags a b).carry = false ∧ (subFlags a b).zero = false ↔ b.toNat < a.toNat := by
  rw [← Bool.not_eq_true, ← Bool.not_eq_true, subFlags_carry_iff, subFlags_zero_iff, ← BitVec.toNat_inj]
  omega

/-- JLT's condition after SUB, by the operands' signs: where they agree, Sign differs from Overflow exactly if the operands
are negative; where they differ, Overflow is clear (R83, R111). -/
theorem condLT_subFlags (a b : Word) :
    condLT (subFlags a b) = if a.msb = b.msb then a.msb else (a - b).msb := by
  rw [subFlags_eq, condLT]
  split
  · next h =>
    simp only [h, true_and]
    cases b.msb <;> cases (a - b).msb <;> rfl
  · next h => simp [h]

/-- JGT's condition after SUB, by the operands' signs: operands of different signs are not equal (R83, R112). -/
theorem condGT_subFlags (a b : Word) :
    condGT (subFlags a b) =
      if a.msb = b.msb then !a.msb && decide (a ≠ b) else !(a - b).msb := by
  rw [subFlags_eq, condGT]
  split
  · next h =>
    simp only [h, true_and]
    cases b.msb <;> cases (a - b).msb <;> simp
  · next h =>
    have hne : a ≠ b := fun hab => h (congrArg BitVec.msb hab)
    simp [h, hne]

/-! ### The statements of the family -/

/-- Settles O22. -/
theorem addResultAndFlags : Obligations.AddResultAndFlags := by
  intro d s1 s2 s
  rw [exec_add, addFlags_eq]
  rfl

/-- Settles O23. -/
theorem subResultAndFlags : Obligations.SubResultAndFlags := by
  intro d s1 s2 s
  rw [exec_sub, subFlags_eq]
  rfl

/-- Settles O24. -/
theorem multResultAndFlags : Obligations.MultResultAndFlags := by
  intro d s1 s2 s
  refine ⟨decodeWord_packFields 5 d s1 s2, rfl, ?_⟩
  rw [exec_mult, multFlags_eq]
  rfl

/-- Settles O25: the zero divisor leaves what `raise` leaves. -/
theorem divResultAndFlags : Obligations.DivResultAndFlags := by
  intro d s1 s2 s
  refine ⟨decodeWord_packFields 6 d s1 s2, rfl, fun hne => ?_, fun h0 => ?_⟩
  · rw [exec_div d s1 s2 hne, divFlags_eq _ hne]
    rfl
  · exact ⟨_, exec_div_of_eq_zero d s1 s2 h0, fun _ => rfl, rfl, fun _ => rfl, rfl, rfl, rfl⟩

/-- Settles O26: the latched word is the encoding of the instruction. -/
theorem divideByZeroLatchesRecord : Obligations.DivideByZeroLatchesRecord :=
  fun d s1 s2 _ h0 => exec_div_of_eq_zero d s1 s2 h0

/-- Settles O27. -/
theorem addOverflowIsSignedOverflow : Obligations.AddOverflowIsSignedOverflow :=
  fun d s1 s2 s => ⟨_, exec_add d s1 s2 s, addFlags_overflow_iff _ _⟩

/-- Settles O28. -/
theorem signedJumpsAfterSub : Obligations.SignedJumpsAfterSub := by
  intro d s1 s2 r c s
  refine ⟨_, exec_sub d s1 s2 s, congrArg Host.Outcome.next (jumpIf_eq ?_ r _),
    congrArg Host.Outcome.next (jumpIf_eq ?_ r _)⟩
  · rw [storeArithmetic_flags, condLT_subFlags]
  · rw [storeArithmetic_flags, condGT_subFlags]

/-- Settles O29. -/
theorem carryAndZeroAfterSubGiveUnsignedOrder : Obligations.CarryAndZeroAfterSubGiveUnsignedOrder := by
  intro d s1 s2 r c s
  refine ⟨_, exec_sub d s1 s2 s, subFlags_carry_iff _ _, subFlags_zero_iff _ _, subFlags_carry_zero_false_iff _ _,
    congrArg Host.Outcome.next (jumpIf_eq (subFlags_carry_iff _ _) r _),
    congrArg Host.Outcome.next (jumpIf_eq ?_ r _)⟩
  rw [condNC, storeArithmetic_flags, Bool.not_eq_true', ← Bool.not_eq_true, subFlags_carry_iff, Nat.not_lt]

/-- Settles O30. -/
theorem signedResultsModulo : Obligations.SignedResultsModulo := by
  intro d s1 s2 s
  refine ⟨_, _, _, exec_add d s1 s2 s, exec_sub d s1 s2 s, exec_mult d s1 s2 s, ?_, ?_, ?_⟩
  · rw [readReg_storeArithmetic_same, BitVec.toInt_add]
  · rw [readReg_storeArithmetic_same, BitVec.toInt_sub]
  · rw [readReg_storeArithmetic_same, BitVec.toInt_mul]

/-- Settles O31. -/
theorem divStoresFloorOfQuotient : Obligations.DivStoresFloorOfQuotient := by
  intro d s1 s2 s hne
  have hpos : 0 < (readReg s s2).toNat := Nat.pos_of_ne_zero (BitVec.toNat_ne.1 hne)
  refine ⟨_, exec_div d s1 s2 hne, ?_⟩
  rw [readReg_storeArithmetic_same, BitVec.toNat_udiv]
  exact ⟨Nat.div_mul_le_self _ _, (Nat.div_lt_iff_lt_mul hpos).1 (Nat.lt_succ_self _)⟩

end Sys2Proof.Machine
end

section
/-! The control family (42_ext_control.md): when a jump is taken, the words of NOP as the fetch reads them, and what the step
driver does with a step and with a stopped machine. -/

namespace Sys2Proof

/-- A packed word is two bytes of two fields each (30_encoding.md R50). -/
theorem append_bytes_eq_packFields (op a b c : Nibble) :
    ((op ++ a : Byte) ++ (b ++ c : Byte) : Half) = packFields op a b c :=
  BitVec.append_assoc.symm

end Sys2Proof

namespace Sys2Proof.Machine

/-! ### When a jump is taken -/

theorem condLT_iff (f : Flags) : condLT f = true ↔ f.sign ≠ f.overflow := bne_iff_ne

theorem condGT_iff (f : Flags) : condGT f = true ↔ f.zero = false ∧ f.sign = f.overflow := by
  rw [condGT, Bool.and_eq_true, Bool.not_eq_true', beq_iff_eq]

/-- A jump under a condition that means `p` goes to the register's value or changes nothing (R113). -/
theorem Jump.exec_eq_ite {i : Instr} {cond : Flags → Bool} {r : Nibble} (h : Jump i cond r) {s : State} {p : Prop}
    [Decidable p] (hp : cond s.flags = true ↔ p) :
    exec i s = .next (if p then { s with pc := readReg s r } else s) := by
  rw [h.exec_eq, ite_congr (propext hp) (fun _ => rfl) (fun _ => rfl)]
  split <;> rfl

/-- Where the target is not the next instruction, a jump arrives at it exactly if its condition holds (R114). -/
theorem Jump.arrives_iff {i : Instr} {cond : Flags → Bool} {r : Nibble} (h : Jump i cond r) {s : State}
    (hne : readReg s r ≠ s.pc) : exec i s = .next { s with pc := readReg s r } ↔ cond s.flags = true := by
  rw [h.exec_eq_ite Iff.rfl]
  split
  · next hc => exact iff_of_true rfl hc
  · next hc =>
    refine iff_of_false (fun heq => hne ?_) hc
    injection heq with hs
    exact (congrArg State.pc hs).symm

/-- Of two jumps whose conditions are each other's negation, exactly one arrives (R114). -/
theorem Jump.arrives_iff_not_arrives {i j : Instr} {cond : Flags → Bool} {r : Nibble} (h : Jump i cond r)
    (h' : Jump j (fun f => !cond f) r) {s : State} (hne : readReg s r ≠ s.pc) :
    exec i s = .next { s with pc := readReg s r } ↔ ¬ exec j s = .next { s with pc := readReg s r } := by
  rw [h.arrives_iff hne, h'.arrives_iff hne, Bool.not_eq_true', Bool.not_eq_false]

/-! ### The step driver -/

/-- Below the limit, a turn executes a step and counts it (70_reset_and_hazards.md R167, R168). -/
theorem driverTurn_of_step {limit : Option Nat} {d : DriverState} {t : State}
    (hlimit : limitReached limit d.steps = false) (hstep : step d.engine = .next t) :
    driverTurn limit d = some ⟨t, d.steps + 1, d.limitHit⟩ := by
  simp [driverTurn, hlimit, hstep]

/-- The driver's loop ends at once on a machine that is not running (R167). -/
theorem driverLoop_of_not_running (limit : Option Nat) (fuel : Nat) {d : DriverState} (h : d.engine.running = false) :
    driverLoop limit fuel d = some d := by
  cases fuel <;> simp [driverLoop, h]

theorem powerOn_of_fault_eq_none {s : State} (h : s.fault = none) : powerOn s = setRunning s true := by
  simp only [powerOn, h]

/-! ### The statements of the family -/

/-- Settles O37. -/
theorem conditionalJumps : Obligations.ConditionalJumps := by
  intro r c s
  have hnot (b : Bool) : (!b) = true ↔ b = false := iff_of_eq (Bool.not_eq_true' b)
  refine ⟨⟨decodeWord_packFields 0 3 r c, (Jump.jz r c).exec_eq_ite Iff.rfl⟩,
    ⟨decodeWord_packFields 0 4 r c, (Jump.jnz r c).exec_eq_ite (hnot _)⟩,
    ⟨decodeWord_packFields 0 5 r c, (Jump.jc r c).exec_eq_ite Iff.rfl⟩,
    ⟨decodeWord_packFields 0 6 r c, (Jump.jnc r c).exec_eq_ite (hnot _)⟩,
    ⟨decodeWord_packFields 0 7 r c, (Jump.js r c).exec_eq_ite Iff.rfl⟩,
    ⟨decodeWord_packFields 0 8 r c, (Jump.jns r c).exec_eq_ite (hnot _)⟩,
    ⟨decodeWord_packFields 0 9 r c, (Jump.jo r c).exec_eq_ite Iff.rfl⟩,
    ⟨decodeWord_packFields 0 10 r c, (Jump.jno r c).exec_eq_ite (hnot _)⟩,
    ⟨decodeWord_packFields 0 11 r c, (Jump.jlt r c).exec_eq_ite (condLT_iff _)⟩,
    ⟨decodeWord_packFields 0 12 r c, (Jump.jgt r c).exec_eq_ite (condGT_iff _)⟩, ?_⟩
  simp [Instr.lengthBytes]

/-- Settles O38: JLT needs Sign and Overflow to differ, JGT needs them to agree with Zero clear. -/
theorem complementaryJumps : Obligations.ComplementaryJumps := by
  intro r c s hne taken
  have hlt : taken (.jlt r c) ↔ s.flags.sign ≠ s.flags.overflow :=
    ((Jump.jlt r c).arrives_iff hne).trans (condLT_iff _)
  have hgt : taken (.jgt r c) ↔ s.flags.zero = false ∧ s.flags.sign = s.flags.overflow :=
    ((Jump.jgt r c).arrives_iff hne).trans (condGT_iff _)
  refine ⟨(Jump.jz r c).arrives_iff_not_arrives (.jnz r c) hne, (Jump.jc r c).arrives_iff_not_arrives (.jnc r c) hne,
    (Jump.js r c).arrives_iff_not_arrives (.jns r c) hne, (Jump.jo r c).arrives_iff_not_arrives (.jno r c) hne,
    fun ⟨h, h'⟩ => hlt.1 h (hgt.1 h').2, fun hz heq => ⟨fun h => hlt.1 h heq, fun h => ?_⟩, hlt.2⟩
  exact absurd (hz.symm.trans (hgt.1 h).1) nofun

/-- Settles O34: the two bytes fetched are the word `0 0 b c`. -/
theorem nopChangesNothing : Obligations.NopChangesNothing := by
  intro b c s
  refine ⟨decodeWord_packFields 0 0 b c, rfl, rfl, fun hr hf hhi hlo => ?_⟩
  have hword : fetchWord s = packFields 0 0 b c := by
    rw [fetchWord, Memory.read16, hhi, hlo]
    exact append_bytes_eq_packFields 0 0 b c
  have hstep : step s = .next (afterFetch s) := by
    rw [step_fetched hr hf, hword, decodeWord_packFields]
    rfl
  exact ⟨hstep, fun _ _ => driverTurn_of_step rfl hstep⟩

/-- Settles O35. -/
theorem haltStopsTheEngine : Obligations.HaltStopsTheEngine :=
  fun b c _ => ⟨decodeWord_packFields 0 1 b c, rfl, rfl, step_stopped rfl,
    fun limit fuel => driverLoop_of_not_running limit fuel rfl, fun h => powerOn_of_fault_eq_none h⟩

/-- Settles O36. -/
theorem jmpGoesToRegister : Obligations.JmpGoesToRegister := by
  intro r c s
  refine ⟨decodeWord_packFields 0 2 r c, rfl, (Jump.jmp r c).exec_eq s, fun hr hout => ?_⟩
  exact ⟨_, step_not_fetched (s := setPc s (readReg s r)) hr (Nat.not_lt.2 (Nat.sub_le_iff_le_add.1 hout)), rfl, rfl⟩

end Sys2Proof.Machine
end

section
/-! The memory instructions (43_ext_memory.md): the datum that LD loads and the bytes that ST stores, as numbers, then the
two instructions and ST followed by LD. -/

namespace Sys2Proof.Machine

/-- A 16-bit read as a number: the byte at the lower address is the more significant (20_memory.md R33, R36). -/
theorem Memory.toNat_read16 (m : Memory) (a : Nat) :
    (m.read16 a).toNat = 256 * (m.read a).toNat + (m.read (a + 1)).toNat := by
  rw [Memory.read16, toNat_append_bytes, Nat.mul_comm]

/-- The datum of LD, from the two bytes at its address (R120). -/
theorem loadDatum_eq_ofNat (s : State) (a : Nat) :
    loadDatum s a = BitVec.ofNat 32 (256 * (s.mem.read a).toNat + (s.mem.read (a + 1)).toNat) := by
  rw [loadDatum, ← Memory.toNat_read16, BitVec.ofNat_toNat]

/-- LD of the half just written at its address reads it back (R123). -/
@[simp] theorem loadDatum_setMem_write16 (s : State) (a : Nat) (v : Half) :
    loadDatum (setMem s (s.mem.write16 a v)) a = v.setWidth 32 := by
  rw [loadDatum, setMem_mem, Memory.read16_write16_same]

/-- The number of ST's datum: the register's value modulo 2^16 (R121). -/
@[simp] theorem toNat_storeDatum (s : State) (r : Nibble) : (storeDatum s r).toNat = (readReg s r).toNat % 2 ^ 16 :=
  BitVec.toNat_setWidth 16 _

/-- The first byte that ST stores: bits 15:8 of the register (R121). -/
theorem toNat_storeDatum_highByte (s : State) (r : Nibble) :
    ((storeDatum s r).extractLsb' 8 8).toNat = (readReg s r).toNat / 256 % 256 := by
  rw [BitVec.extractLsb'_toNat, toNat_storeDatum, Nat.shiftRight_eq_div_pow]
  omega

/-- The second byte that ST stores: bits 7:0 of the register (R121). -/
theorem toNat_storeDatum_lowByte (s : State) (r : Nibble) :
    ((storeDatum s r).extractLsb' 0 8).toNat = (readReg s r).toNat % 256 := by
  rw [BitVec.extractLsb'_toNat, toNat_storeDatum, Nat.shiftRight_zero]
  omega

/-- Settles O41. -/
theorem ldLoadsBigEndianHalf : Obligations.LdLoadsBigEndianHalf := by
  intro d r s hin
  rw [exec_ld_of_canAccess d r hin, loadDatum_eq_ofNat]
  rfl

/-- Settles O42, from the bytes of a 16-bit write (`memWriteBytes`). -/
theorem stStoresLowHalf : Obligations.StStoresLowHalf := by
  intro d r s hin
  obtain ⟨hhigh, hlow, hother⟩ := memWriteBytes.1 s.mem (readReg s d).toNat (storeDatum s r)
  refine ⟨_, exec_st_of_canAccess d r hin, ?_, ?_, hother, rfl⟩
  · exact (congrArg BitVec.toNat hhigh).trans (toNat_storeDatum_highByte s r)
  · exact (congrArg BitVec.toNat hlow).trans (toNat_storeDatum_lowByte s r)

/-- Settles O45: ST writes no register, so LD finds the address unchanged and reads the stored datum back. -/
theorem storeThenLoadRoundTrip : Obligations.StoreThenLoadRoundTrip := by
  intro d r e q s hin haddr
  have heff (m : Memory) : effectiveAddress (setMem s m) q = effectiveAddress s d := congrArg BitVec.toNat haddr
  refine ⟨_, _, exec_st_of_canAccess d r hin, exec_ld_of_canAccess e q (by rwa [heff]), ?_⟩
  rw [readReg_writeReg_same, heff, loadDatum_setMem_write16, BitVec.toNat_setWidth_of_le (by decide), toNat_storeDatum]

end Sys2Proof.Machine
end

section
/-! The exceptions family (60_exceptions.md): what a fault latches, then the invariant, the precision and the cause of each
fault, and the faulted state. -/

namespace Sys2Proof.Machine

open Sys2Proof.Safety

/-! ### What a fault latches -/

/-- An instruction leaves the latch alone, or raises its fault with its own word and changes nothing else (R131). -/
theorem Effect.fault_cases {s t : State} {i : Instr} (h : Effect s i t) :
    t.fault = s.fault ∨ ∃ k, RaisesFault s i k ∧ t = raise k (some (encode i)) s := by
  cases h with
  | fault _ k hk => exact .inr ⟨k, hk, rfl⟩
  | move | immediate | arithmetic | nothing | jump | halt | store => exact .inl rfl

/-- A step leaves the latch alone, or its fetch fails, or the fetched instruction raises its fault with the word fetched
(R131, R139). -/
theorem step_fault_cases {s t : State} (h : step s = .next t) :
    t.fault = s.fault ∨
    (¬ canFetch s ∧ t = raise .outOfBoundsFetch none s) ∨
    (canFetch s ∧ ∃ k, RaisesFault (afterFetch s) (decodeWord (fetchWord s)) k ∧
      t = raise k (some (fetchWord s)) (afterFetch s)) := by
  obtain ⟨-, rfl⟩ | ⟨-, hf, rfl⟩ | ⟨-, hf, h⟩ := step_cases h
  · exact .inl rfl
  · exact .inr (.inl ⟨hf, rfl⟩)
  · obtain hkept | ⟨k, hk, ht⟩ := (exec_effect h).fault_cases
    · exact .inl hkept
    · rw [encode_decodeWord] at ht
      exact .inr (.inr ⟨hf, k, hk, ht⟩)

/-- The record of a fault that an instruction raises names a word, and for LDI a `pc`, that raises its kind (R130). -/
theorem RaisesFault.recordOk_latched {s : State} {i : Instr} {k : FaultKind} (h : RaisesFault s i k)
    (hi : i.wellFormed = true) : recordOk ⟨k, some (encode i), s.pc⟩ := by
  cases h with
  | unknown _ hu => exact (illegalWord_encode_iff hi).2 hu
  | noImmediate d b c hout => exact ⟨fieldOpcode_packFields .., Nat.not_le.1 hout⟩
  | zeroDivisor d s1 s2 => exact fieldOpcode_packFields ..
  | badLoad d r => exact ⟨fieldOpcode_packFields .., .inl (fieldA_packFields ..)⟩
  | badStore d r => exact ⟨fieldOpcode_packFields .., .inr (fieldA_packFields ..)⟩

/-! ### The invariant -/

/-- A step keeps memory in canonical form: only ST in range writes it. -/
theorem step_keeps_mem_wf {s t : State} (h : step s = .next t) (hm : s.mem.wf) : t.mem.wf := by
  obtain ⟨-, rfl⟩ | ⟨-, -, rfl⟩ | ⟨-, -, h⟩ := step_cases h
  · exact hm
  · exact hm
  · obtain hmem | ⟨d, r, -, hin, hmem⟩ := (exec_effect h).mem_cases
    · rwa [hmem]
    · rw [hmem]
      exact Memory.wf_write16 _ hm hin

/-- Under the invariant a machine with a fault latched is not running (R138). -/
theorem running_eq_false_of_fault {s : State} (h : StateInv s) (hfault : s.fault ≠ none) : s.running = false := by
  obtain ⟨r, hr⟩ := Option.ne_none_iff_exists'.1 hfault
  exact (h.2 r hr).1

/-- Settles O3: a fault latched before the step stands in a stopped machine, which the step leaves alone, and one latched
by the step names a word that raises it by `RaisesFault.recordOk_latched`. -/
theorem stepKeepsInvariant : Obligations.StepKeepsInvariant := by
  rintro s t ⟨hmem, hlatch⟩ h
  refine ⟨step_keeps_mem_wf h hmem, fun r hr => ?_⟩
  obtain hkept | ⟨hf, rfl⟩ | ⟨-, k, hk, rfl⟩ := step_fault_cases h
  · rw [hkept] at hr
    have hok := hlatch r hr
    rw [step_stopped hok.1] at h
    cases h
    exact hok
  · cases hr
    exact ⟨rfl, rfl, Nat.not_lt.1 hf⟩
  · cases hr
    have hok := hk.recordOk_latched (wellFormed_decodeWord _)
    rw [encode_decodeWord] at hok
    exact ⟨rfl, rfl, hok⟩

/-! ### Precision -/

/-- Settles O52, from `step_fault_cases`: the state left is what `raise` leaves. -/
theorem faultsArePrecise : Obligations.FaultsArePrecise := by
  intro s t r hs h hr
  obtain hkept | ⟨hf, rfl⟩ | ⟨hf, k, -, rfl⟩ := step_fault_cases h
  · exact absurd (hr.symm.trans (hkept.trans hs)) nofun
  · cases hr
    exact ⟨rfl, rfl, rfl, rfl, rfl, .inr ⟨Nat.not_lt.1 hf, rfl, rfl⟩⟩
  · cases hr
    exact ⟨rfl, rfl, rfl, rfl, rfl, .inl ⟨hf, rfl, rfl⟩⟩

/-! ### The cause of each fault -/

theorem faultCause_of_not_canFetch {s : State} (hf : ¬ canFetch s) : faultCause s = some .outOfBoundsFetch :=
  if_pos (Nat.not_lt.1 hf)

theorem faultCause_of_illegalWord {s : State} (hf : canFetch s) (h : illegalWord (fetchWord s)) :
    faultCause s = some .unknownOpcode := by
  rw [faultCause, if_neg (Nat.not_le.2 hf), if_pos h]

/-- The cause of a fault where the word fetched is legal: the one check of LDI, DIV, LD or ST (R142). -/
theorem faultCause_of_legal {s : State} (hf : canFetch s) {op a b c : Nibble}
    (hw : fetchWord s = packFields op a b c) (hlegal : ¬ illegalWord (packFields op a b c)) :
    faultCause s =
      if op = 2 ∧ ¬ ldiFits (afterFetch s) then some .insufficientImmediateSpace
      else if op = 6 ∧ readReg s c = 0 then some .divideByZero
      else if op = 0 ∧ a = 13 ∧ ¬ canAccess (effectiveAddress s c) then some .outOfBoundsAccess
      else if op = 0 ∧ a = 14 ∧ ¬ canAccess (effectiveAddress s b) then some .outOfBoundsAccess
      else none := by
  have hop : (packFields op a b c).extractLsb' 12 4 = op := fieldOpcode_packFields ..
  have ha : (packFields op a b c).extractLsb' 8 4 = a := fieldA_packFields ..
  have hb : (packFields op a b c).extractLsb' 4 4 = b := fieldB_packFields ..
  have hc : (packFields op a b c).extractLsb' 0 4 = c := fieldC_packFields ..
  simp only [faultCause, hw, hop, ha, hb, hc, if_neg (Nat.not_le.2 hf), if_neg hlegal, ldiFits_afterFetch hf, canAccess,
    effectiveAddress, Nat.not_le, Nat.not_lt]

/-- The instruction fetched at `s` latches a fault of the kind that the word, `pc` and the registers give, or none: the
illegal words and the instructions with a check in turn, and the others have no fault to raise. -/
theorem exec_afterFetch_faultKind {s : State} (hf : canFetch s) (hnone : s.fault = none) {i : Instr}
    (hi : i.wellFormed = true) (hw : fetchWord s = encode i) :
    ∃ t, exec i (afterFetch s) = .next t ∧ t.fault.map FaultRecord.kind = faultCause s := by
  have hill := illegalWord_encode_iff hi
  obtain ⟨t, ht, -⟩ := exec_afterFetch_pc hf i
  have hcases := (exec_effect ht).fault_cases
  cases i with
  | unknownExtF | unknownBase7 | unknownBase8ToF =>
    exact ⟨_, rfl, (faultCause_of_illegalWord hf (hw ▸ hill.2 rfl)).symm⟩
  | ldi d b c =>
    rw [faultCause_of_legal hf hw (mt hill.1 nofun)]
    by_cases h : ldiFits (afterFetch s)
    · exact ⟨_, exec_ldi_of_fits d b c h, by simp [-afterFetch_pc, h, hnone]⟩
    · exact ⟨_, exec_ldi_of_not_fits d b c h, (if_pos ⟨rfl, h⟩).symm⟩
  | div d s1 s2 =>
    rw [faultCause_of_legal hf hw (mt hill.1 nofun)]
    by_cases h : readReg s s2 = 0
    · exact ⟨_, exec_div_of_eq_zero d s1 s2 h, by simp [h]⟩
    · exact ⟨_, exec_div_of_ne_zero d s1 s2 h, by simpa [hnone] using h⟩
  | ld d r =>
    rw [faultCause_of_legal hf hw (mt hill.1 nofun)]
    by_cases h : canAccess (effectiveAddress s r)
    · exact ⟨_, exec_ld_of_canAccess d r h, by simp [h, hnone]⟩
    · exact ⟨_, exec_ld_of_not_canAccess d r h, by simp [h]⟩
  | st d r =>
    rw [faultCause_of_legal hf hw (mt hill.1 nofun)]
    by_cases h : canAccess (effectiveAddress s d)
    · exact ⟨_, exec_st_of_canAccess d r h, by simp [h, hnone]⟩
    · exact ⟨_, exec_st_of_not_canAccess d r h, by simp [h]⟩
  | _ =>
    rw [faultCause_of_legal hf hw (mt hill.1 nofun)]
    obtain hkept | ⟨k, hk, -⟩ := hcases
    · exact ⟨t, ht, by simp [hkept, hnone]⟩
    · cases hk with | unknown _ hu => cases hu

/-- Settles O53. -/
theorem faultsHaveTheirCauses : Obligations.FaultsHaveTheirCauses := by
  intro s hr hnone
  by_cases hf : canFetch s
  · rw [step_fetched hr hf]
    exact exec_afterFetch_faultKind hf hnone (wellFormed_decodeWord _) (encode_decodeWord _).symm
  · exact ⟨_, step_not_fetched hr hf, (faultCause_of_not_canFetch hf).symm⟩

/-! ### The faulted state -/

theorem powerOn_of_fault_ne_none {s : State} (h : s.fault ≠ none) : powerOn s = s := by
  obtain ⟨r, hr⟩ := Option.ne_none_iff_exists'.1 h
  simp only [powerOn, hr]

/-- Any number of steps leaves a machine that is not running as it is (decision D13). -/
theorem steps_stopped {s : State} (hr : s.running = false) (k : Nat) : steps k s = some s := by
  induction k with
  | zero => rfl
  | succ k ih => simpa only [steps, step_stopped hr] using ih

/-- Settles O54: a faulted machine is not running. -/
theorem faultedIsTerminal : Obligations.FaultedIsTerminal := by
  intro s hs hfault
  have hr := running_eq_false_of_fault hs hfault
  refine ⟨steps_stopped hr, fun limit fuel => driverLoop_of_not_running limit fuel hr, powerOn_of_fault_ne_none hfault,
    fun base image t h => ?_⟩
  obtain ⟨-, rfl⟩ := loadImage_cases h
  rfl

/-! ### LD and ST out of range -/

/-- Settles O43: the latched word is the encoding of the instruction. -/
theorem accessOutsideMemoryFaults : Obligations.AccessOutsideMemoryFaults := fun d r _ =>
  ⟨fun hout => exec_ld_of_not_canAccess d r (Nat.not_lt.2 hout),
    fun hout => exec_st_of_not_canAccess d r (Nat.not_lt.2 hout)⟩

end Sys2Proof.Machine
end

section
/-! The reset family (70_reset_and_hazards.md): what the host's actions leave, then the step driver's loop (what every turn
keeps holds of the state it ends in, and a limited one ends), then the record of a run and the statements about it. -/

namespace Sys2Proof.Machine

open Sys2Proof.Safety

/-! ### The host's actions -/

/-- Clearing `running` keeps the invariant, as the driver's forced stop does (R167). -/
theorem setRunning_false_keeps_stateInv {s : State} (h : StateInv s) : StateInv (setRunning s false) :=
  ⟨h.1, fun r hr => ⟨rfl, (h.2 r hr).2⟩⟩

theorem powerOn_keeps_stateInv {s : State} (h : StateInv s) : StateInv (powerOn s) := by
  by_cases hfault : s.fault = none
  · rw [powerOn_of_fault_eq_none hfault]
    exact ⟨h.1, fun r hr => absurd (hfault.symm.trans hr) nofun⟩
  · rwa [powerOn_of_fault_ne_none hfault]

/-- Settles O4. -/
theorem hostActionsKeepInvariant : Obligations.HostActionsKeepInvariant := by
  refine ⟨fun launch hlaunch => ⟨hlaunch, nofun⟩, fun s hs =>
    ⟨powerOn_keeps_stateInv hs, setRunning_false_keeps_stateInv hs, fun base image t h => ?_⟩⟩
  obtain ⟨-, rfl⟩ := loadImage_cases h
  exact ⟨Memory.wf_place base image hs.1, hs.2⟩

/-- Settles O5. -/
theorem bootRunsWordAtZero : Obligations.BootRunsWordAtZero := fun launch =>
  step_fetched (s := setRunning (State.resetWith launch) true) rfl (show 0 + 1 < Config.memSize by decide)

/-- Settles O56. -/
theorem powerOnSetsRunning : Obligations.PowerOnSetsRunning := fun _ =>
  ⟨powerOn_of_fault_eq_none, powerOn_of_fault_ne_none⟩

/-- Placing bytes leaves every byte before and after them as it was (R165). -/
theorem Memory.read_place_outside (m : Memory) (a : Nat) (bytes : List Byte) {x : Nat}
    (hx : x < a ∨ a + bytes.length ≤ x) : (m.place a bytes).read x = m.read x := by
  induction bytes generalizing m a with
  | nil => rfl
  | cons v vs ih =>
    rw [List.length_cons] at hx
    rw [Memory.place, ih _ _ (by omega)]
    split
    · exact Memory.read_write_other m v (by omega)
    · rfl

/-- Placed bytes that fit stand in order from the base address on (R165). -/
theorem Memory.read_place_inside (m : Memory) (a : Nat) (bytes : List Byte) (hfit : inMemory a bytes.length) {k : Nat}
    (hk : k < bytes.length) : (m.place a bytes).read (a + k) = bytes[k] := by
  induction bytes generalizing m a k with
  | nil => cases hk
  | cons v vs ih =>
    rw [List.length_cons] at hfit
    rw [Memory.place, if_pos (by omega)]
    cases k with
    | zero => rw [Memory.read_place_outside _ _ _ (by omega), Nat.add_zero, Memory.read_write_same, List.getElem_cons_zero]
    | succ k =>
      rw [List.getElem_cons_succ, ← ih (m.write a v) (a + 1) (by omega) (Nat.lt_of_succ_lt_succ hk),
        Nat.add_assoc a 1 k, Nat.add_comm 1 k]

/-- Settles O60. -/
theorem memoryLoadPlacesBytes : Obligations.MemoryLoadPlacesBytes := fun s base image =>
  ⟨fun hfit => ⟨_, if_pos hfit, rfl, fun _ => Memory.read_place_inside s.mem base image hfit,
    fun _ => Memory.read_place_outside s.mem base image⟩, fun hout => if_neg (Nat.not_le.2 hout)⟩

/-! ### The driver's loop -/

/-- At the limit, a turn clears `running` and reports the limit hit (R167). -/
theorem driverTurn_of_limitReached {limit : Option Nat} {d : DriverState} (h : limitReached limit d.steps = true) :
    driverTurn limit d = some ⟨setRunning d.engine false, d.steps, true⟩ := by
  rw [driverTurn, if_pos h]

theorem driverLoop_succ_of_running {limit : Option Nat} (fuel : Nat) {d e : DriverState} (hr : d.engine.running = true)
    (h : driverTurn limit d = some e) : driverLoop limit (fuel + 1) d = driverLoop limit fuel e := by
  simp only [driverLoop, hr, if_true, h]

/-- The loop ends in a state that is not running, and in which all holds that its first state has and every turn keeps. -/
theorem driverLoop_keeps {limit : Option Nat} {P : DriverState → Prop}
    (hturn : ∀ d e, d.engine.running = true → driverTurn limit d = some e → P d → P e)
    {fuel : Nat} {d e : DriverState} (h : driverLoop limit fuel d = some e) (hd : P d) : e.engine.running = false ∧ P e := by
  induction fuel generalizing d with
  | zero =>
    simp only [driverLoop] at h
    split at h <;> cases h
    exact ⟨Bool.eq_false_iff.2 ‹_›, hd⟩
  | succ fuel ih =>
    simp only [driverLoop] at h
    split at h
    · next hr =>
      split at h
      · next d' hd' => exact ih h (hturn d d' hr hd' hd)
      · cases h
    · cases h
      exact ⟨Bool.eq_false_iff.2 ‹_›, hd⟩

theorem limitReached_some_iff (n k : Nat) : limitReached (some n) k = true ↔ n ≤ k := decide_eq_true_iff

theorem exists_limit_of_limitReached {limit : Option Nat} {k : Nat} (h : limitReached limit k = true) :
    ∃ n, limit = some n ∧ n ≤ k := by
  cases limit with
  | none => cases h
  | some n => exact ⟨n, rfl, (limitReached_some_iff n k).1 h⟩

/-- With a limit the loop ends: each turn takes a unit of the fuel and executes one of the steps left, or stops. -/
theorem exists_driverLoop_of_limit {n fuel : Nat} {d : DriverState} (hsteps : d.steps ≤ n) (hfuel : n < fuel + d.steps) :
    ∃ e, driverLoop (some n) fuel d = some e := by
  induction fuel generalizing d with
  | zero => omega
  | succ fuel ih =>
    by_cases hr : d.engine.running = true
    · by_cases hl : limitReached (some n) d.steps = true
      · exact ⟨_, (driverLoop_succ_of_running fuel hr (driverTurn_of_limitReached hl)).trans
          (driverLoop_of_not_running _ _ rfl)⟩
      · have hlt : d.steps < n := Nat.not_le.1 (mt (limitReached_some_iff n d.steps).2 hl)
        obtain ⟨t, ht⟩ := everyStateHasNextState d.engine
        rw [driverLoop_succ_of_running fuel hr (driverTurn_of_step (Bool.eq_false_iff.2 hl) ht)]
        exact ih (d := ⟨t, d.steps + 1, d.limitHit⟩) hlt (by dsimp only; omega)
    · exact ⟨d, driverLoop_of_not_running _ _ (Bool.eq_false_iff.2 hr)⟩

/-- Settles O59. -/
theorem runWithNothingToDo : Obligations.RunWithNothingToDo :=
  ⟨fun limit fuel _ hr => driverLoop_of_not_running limit fuel hr,
    fun _ hr => driverLoop_succ_of_running 0 hr (driverTurn_of_limitReached rfl)⟩

/-! ### The record of a run -/

/-- One more step after `k` of them. -/
theorem steps_succ {k : Nat} {s u t : State} (hu : steps k s = some u) (ht : step u = .next t) :
    steps (k + 1) s = some t := by
  induction k generalizing s with
  | zero =>
    cases hu
    simp only [steps, ht]
  | succ k ih =>
    rw [steps] at hu ⊢
    split at hu
    · exact ih hu
    · cases hu
    · cases hu

/-- A driver that began with the engine in `s` and has counted its steps truly: that many steps, each from a running state,
lead to `t`, which is the engine's state, but for `running` where the limit was hit. The steps stay within the limit. -/
structure RanTo (limit : Option Nat) (s : State) (d : DriverState) (t : State) : Prop where
  reached : steps d.steps s = some t
  fromRunning : ∀ k, k < d.steps → ∃ u, steps k s = some u ∧ u.running = true
  engine : d.engine = if d.limitHit = true then setRunning t false else t
  hit : d.limitHit = true → t.running = true ∧ ∃ n, limit = some n ∧ n ≤ d.steps
  within : ∀ n, limit = some n → d.steps ≤ n

theorem RanTo.start (limit : Option Nat) (s : State) : RanTo limit s ⟨s, 0, false⟩ s :=
  ⟨rfl, nofun, rfl, nofun, fun _ _ => Nat.zero_le _⟩

/-- While the driver's machine runs, the limit has not been hit. -/
theorem RanTo.limitHit_eq_false {limit : Option Nat} {s t : State} {d : DriverState} (h : RanTo limit s d t)
    (hr : d.engine.running = true) : d.limitHit = false := by
  by_contra hhit
  rw [h.engine, if_pos (Bool.eq_true_of_not_eq_false hhit)] at hr
  cases hr

theorem RanTo.engine_eq {limit : Option Nat} {s t : State} {d : DriverState} (h : RanTo limit s d t)
    (hhit : d.limitHit = false) : d.engine = t := by
  rw [h.engine, hhit, if_neg nofun]

/-- Every turn keeps the record true: at the limit the machine was running, and a step is one step further. -/
theorem RanTo.of_driverTurn {limit : Option Nat} {s t : State} {d e : DriverState} (h : RanTo limit s d t)
    (hr : d.engine.running = true) (he : driverTurn limit d = some e) : ∃ t', RanTo limit s e t' := by
  have hhit := h.limitHit_eq_false hr
  have heng := h.engine_eq hhit
  rw [heng] at hr
  obtain ⟨hl, rfl⟩ | ⟨hl, t', ht', rfl⟩ := driverTurn_cases he
  · exact ⟨t, h.reached, h.fromRunning, by simp only [heng, if_true], fun _ => ⟨hr, exists_limit_of_limitReached hl⟩,
      h.within⟩
  · rw [heng] at ht'
    refine ⟨t', steps_succ h.reached ht', fun k hk => ?_, by simp only [hhit, Bool.false_eq_true, if_false],
      fun hhit' => absurd (hhit.symm.trans hhit') nofun, fun n hn => ?_⟩
    · obtain hlt | rfl := Nat.lt_succ_iff_lt_or_eq.1 hk
      · exact h.fromRunning k hlt
      · exact ⟨t, h.reached, hr⟩
    · subst hn
      exact Nat.not_le.1 (mt (limitReached_some_iff n d.steps).2 (Bool.eq_false_iff.1 hl))

/-- What a run that ends leaves: a machine that is not running, and a true record. -/
theorem run_cases {limit : Option Nat} {fuel : Nat} {s : State} {d : DriverState} (h : run limit fuel s = some d) :
    d.engine.running = false ∧ ∃ t, RanTo limit s d t :=
  driverLoop_keeps (P := fun d => ∃ t, RanTo limit s d t) (fun _ _ hr he ⟨_, ht⟩ => ht.of_driverTurn hr he) h
    ⟨s, RanTo.start limit s⟩

/-- The limit is hit only at as many steps as it allows. -/
theorem RanTo.eq_limit {limit : Option Nat} {s t : State} {d : DriverState} (h : RanTo limit s d t)
    (hhit : d.limitHit = true) : ∃ n, limit = some n ∧ d.steps = n := by
  obtain ⟨-, n, hn, hle⟩ := h.hit hhit
  exact ⟨n, hn, Nat.le_antisymm (h.within n hn) hle⟩

/-! ### A limited run ends -/

theorem steps_keeps_stateInv {k : Nat} {s t : State} (hs : StateInv s) (h : steps k s = some t) : StateInv t := by
  induction k generalizing s with
  | zero =>
    cases h
    exact hs
  | succ k ih =>
    rw [steps] at h
    split at h
    · next u hu => exact ih (stepKeepsInvariant s u hs hu) h
    · cases h
    · cases h

/-- Settles O57: where the limit was hit the machine was running, so that no fault was latched. -/
theorem limitedRunEnds : Obligations.LimitedRunEnds := by
  intro n s hs
  obtain ⟨d, hd⟩ : ∃ d, run (some n) (n + 1) s = some d :=
    exists_driverLoop_of_limit (d := ⟨s, 0, false⟩) (Nat.zero_le n) (Nat.lt_succ_self n)
  obtain ⟨hstop, t, ht⟩ := run_cases hd
  refine ⟨d, hd, hstop, ht.within n rfl, fun hhit => ⟨?_, ?_⟩⟩
  · obtain ⟨_, ⟨⟩, heq⟩ := ht.eq_limit hhit
    exact heq
  · rw [ht.engine, if_pos hhit]
    by_contra hfault
    have hr := running_eq_false_of_fault (steps_keeps_stateInv hs ht.reached) hfault
    exact absurd ((ht.hit hhit).1.symm.trans hr) nofun

/-! ### How a run ended -/

/-- The step of a machine at a HALT stops it with no fault latched (42_ext_control.md R101). -/
theorem step_of_haltsNext {u : State} (h : haltsNext u) : step u = .next (setRunning (afterFetch u) false) := by
  obtain ⟨hr, -, hf, b, c, hw⟩ := h
  rw [step_fetched hr hf, hw]
  rfl

/-- A step that stops a running machine with no fault latched is a HALT. -/
theorem haltsNext_of_step {u t : State} (h : step u = .next t) (hu : u.running = true) (ht : t.running = false)
    (hnone : t.fault = none) : haltsNext u := by
  have hhalt := ((runningIsClearedByHaltOrFault u t h).2 hu ht).resolve_right (not_not_intro hnone)
  obtain ⟨hr, -⟩ | ⟨-, -, rfl⟩ | ⟨-, hf, -⟩ := step_cases h
  · exact absurd (hu.symm.trans hr) nofun
  · cases hnone
  · obtain hkept | ⟨-, rfl⟩ | ⟨-, k, -, rfl⟩ := step_fault_cases h
    · exact ⟨hu, hkept.symm.trans hnone, hf, hhalt⟩
    · cases hnone
    · cases hnone

/-- The last step of the record leads to its last state. -/
theorem RanTo.last_step {limit : Option Nat} {s t u : State} {d : DriverState} {k : Nat} (h : RanTo limit s d t)
    (hk : d.steps = k + 1) (hu : steps k s = some u) : step u = .next t := by
  obtain ⟨t', ht'⟩ := everyStateHasNextState u
  have hreached := h.reached
  rw [hk, steps_succ hu ht'] at hreached
  cases hreached
  exact ht'

/-- A run that ends ended well exactly if its last step was a HALT (R169, log entry 15). -/
theorem RanTo.endedWell_iff {limit : Option Nat} {s t : State} {d : DriverState} (h : RanTo limit s d t)
    (hstop : d.engine.running = false) :
    endedWell d ↔ ∃ k u, d.steps = k + 1 ∧ steps k s = some u ∧ haltsNext u := by
  constructor
  · rintro ⟨hpos, -, hnone, hhit⟩
    obtain ⟨k, hk⟩ := Nat.exists_eq_succ_of_ne_zero hpos.ne'
    obtain ⟨u, hu, hr⟩ := h.fromRunning k (hk ▸ Nat.lt_succ_self k)
    rw [h.engine_eq hhit] at hstop hnone
    exact ⟨k, u, hk, hu, haltsNext_of_step (h.last_step hk hu) hr hstop hnone⟩
  · rintro ⟨k, u, hk, hu, hhalt⟩
    have hstep := h.last_step hk hu
    rw [step_of_haltsNext hhalt] at hstep
    cases hstep
    have hhit : d.limitHit = false := Bool.eq_false_iff.2 fun hhit => absurd (h.hit hhit).1 nofun
    exact ⟨hk ▸ Nat.succ_pos k, hstop, (congrArg State.fault (h.engine_eq hhit)).trans hhalt.2.1, hhit⟩

/-- A run of a running machine ended well, by the limit, or badly (R169): unless the limit was hit, it executed a step. -/
theorem RanTo.ended {limit : Option Nat} {s t : State} {d : DriverState} (h : RanTo limit s d t)
    (hstop : d.engine.running = false) (hs : s.running = true) : endedWell d ∨ endedByLimit d ∨ endedBadly d := by
  by_cases hhit : d.limitHit = true
  · exact .inr (.inl hhit)
  by_cases hfault : d.engine.fault = none
  · refine .inl ⟨Nat.pos_of_ne_zero fun hzero => ?_, hstop, hfault, Bool.eq_false_iff.2 hhit⟩
    have hreached := h.reached
    rw [hzero] at hreached
    cases hreached
    rw [h.engine_eq (Bool.eq_false_iff.2 hhit), hs] at hstop
    cases hstop
  · exact .inr (.inr hfault)

/-- Settles O58. -/
theorem runExecutesTheStepsItReports : Obligations.RunExecutesTheStepsItReports := by
  intro limit fuel s d h
  obtain ⟨hstop, t, ht⟩ := run_cases h
  exact ⟨hstop, ⟨t, ht.reached, ht.engine, fun hhit => ⟨(ht.hit hhit).1, ht.eq_limit hhit⟩⟩, ht.fromRunning,
    ht.endedWell_iff hstop, ht.ended hstop⟩

end Sys2Proof.Machine
end
